-- ==== Sys2Proof/Word.lean ====
section
/-! DEFINITION. The word types of the LCD nibble-protocol sequencer (spec/10_state.md R20, R24; spec/30_encoding.md R80).
Every value of the spec is unsigned (R9). -/

namespace Sys2Proof

/-- Four bits: a nibble on `lcd_db[3:0]`, an OP field, a ROW field. -/
abbrev Nibble := BitVec 4

/-- Eight bits: an ARG field, a character, a command byte. -/
abbrev Byte := BitVec 8

/-- The 16-bit request word of R80. -/
abbrev ReqWord := BitVec 16

/-- The level of a one-bit line: `true` is high (1), `false` is low (0). -/
abbrev Level := Bool

end Sys2Proof
end

