-- ==== Sys2Proof/Config.lean ====
section
/-! DEFINITION. The elaboration parameters of spec/00_scope.md R6, their reference values, and the free values of the
model (spec/70_reset_and_hazards.md R201). -/

namespace Sys2Proof

/-- The parameters of R6, one field each, in the table's order. All durations are cycles of `clk`.
The configuration is a constant of the machine: `State` carries it so that every statement ranges over every
configuration, and no step changes it (R6: "No parameter changes while the block runs"). -/
structure Config where
  /-- P_CLK_HZ. No rule of the block's step reads it (R7). -/
  clkHz        : Nat
  /-- P_E_LOW -/
  eLow         : Nat
  /-- P_E_HIGH -/
  eHigh        : Nat
  /-- P_T_POWERON -/
  tPowerOn     : Nat
  /-- P_T_RESET_GAP1 -/
  tResetGap1   : Nat
  /-- P_T_RESET_GAP2 -/
  tResetGap2   : Nat
  /-- P_T_RESET_GAP3 -/
  tResetGap3   : Nat
  /-- P_T_WIDTH_SETTLE -/
  tWidthSettle : Nat
  /-- P_T_INIT_SETTLE -/
  tInitSettle  : Nat
  /-- P_T_BYTE_GAP -/
  tByteGap     : Nat
  /-- P_RESET_NIBBLE -/
  resetNibble  : Nibble
  /-- P_WIDTH_NIBBLE -/
  widthNibble  : Nibble
  /-- P_FUNCSET -/
  funcSet      : Byte
  /-- P_DISPCTL -/
  dispCtl      : Byte
  /-- P_ENTRY -/
  entry        : Byte
  /-- P_ROWS, used only by the contract monitor. -/
  rows         : Nat
  /-- P_COLS, used only by the contract monitor. -/
  cols         : Nat
  /-- P_CNT_W, the width of the delay counter `cnt` in bits (R27). -/
  cntW         : Nat
deriving DecidableEq, Repr

/-- The "reference value" column of R6: the configuration of the spec's test vectors. -/
def Config.reference : Config where
  clkHz        := 1000000
  eLow         := 1
  eHigh        := 1
  tPowerOn     := 100000
  tResetGap1   := 5000
  tResetGap2   := 5000
  tResetGap3   := 5000
  tWidthSettle := 1000
  tInitSettle  := 10000
  tByteGap     := 2000
  resetNibble  := 0x3#4
  widthNibble  := 0x2#4
  funcSet      := 0x28#8
  dispCtl      := 0x0C#8
  entry        := 0x06#8
  rows         := 2
  cols         := 16
  cntW         := 17

/-- FREE VALUE (notes/assumptions/4.md): the RS level of the n-th sample that a reset causes, which R201 writes `?`. -/
opaque Config.freeRs : Nat → Level

/-- FREE VALUE (notes/assumptions/4.md): the nibble of the n-th sample that a reset causes, which R201 writes `?`. -/
opaque Config.freeNib : Nat → Nibble

end Sys2Proof
end

