-- ==== Sys2Proof/Syntax.lean ====
section
/-! DEFINITION. The abstract syntax: the requests of spec/opcode_table.json, the internal actions of spec/00_scope.md R12
and spec/30_encoding.md R86, and the assembler lines of spec/30_encoding.md R95 and R96. -/

namespace Sys2Proof

/-- One request of the opcode table (R82). Every constructor carries both the ROW and the ARG field of its word, the
ignored ones too (R83): acceptance latches all three fields (R123), and so a word has exactly one reading.
DEDUCED (notes/assumptions/12.md). -/
inductive Instr where
  /-- INIT (OP 0x1, R130): ROW and ARG ignored. -/
  | init   (row : Nibble) (arg : Byte)
  /-- CMD (OP 0x2, R150): ARG is the command byte, ROW ignored. -/
  | cmd    (row : Nibble) (arg : Byte)
  /-- DATA (OP 0x3, R151): ARG is the character byte, ROW ignored. -/
  | data   (row : Nibble) (arg : Byte)
  /-- SETCUR (OP 0x4, R154): ROW is the row, ARG the column. -/
  | setcur (row : Nibble) (arg : Byte)
  /-- CLEAR (OP 0x5, R155): ROW and ARG ignored. -/
  | clear  (row : Nibble) (arg : Byte)
deriving DecidableEq, Repr

/-- An action (R12, R86): what the sequencer carries out, one at a time. -/
inductive Action where
  /-- DRIVE_LOW (R112). -/
  | driveLow
  /-- WAIT(n) (R113). -/
  | wait (n : Nat)
  /-- NIBBLE(v, m) (R114): nibble `v` at RS level `m`, with one enable pulse. -/
  | nibble (v : Nibble) (m : Level)
deriving DecidableEq, Repr

/-- An action program (R12): `P[i]` is its i-th action, from 0. -/
abbrev Program := List Action

/-- One line of assembler text, as parsed (R95, R96). Operands are the numbers as written: whether they fit their
fields is `AsmLine.wellFormed`. -/
inductive AsmLine where
  | init
  | cmd    (b : Nat)
  | data   (b : Nat)
  | setcur (r c : Nat)
  | clear
  | word   (w : Nat)
  /-- PRINTS (R152): `none` is the absent text. -/
  | prints (text : Option (List Byte))
deriving DecidableEq, Repr

end Sys2Proof
end

