-- ==== Sys2Proof/WellFormed.lean ====
section
/-! DEFINITION. The well-formedness checks of the syntax. A request (`Instr`) needs none: its fields have the widths of
R80, and every value of every field is a request the block carries out (R81, R94, R154). What can be ill-formed is an
assembler line whose operand does not fit its field (R95), a word whose ignored fields an assembler would not have
written (R95), and an action or program that the delay counter cannot time (R113, R27). -/

namespace Sys2Proof

/-- R95: "An assembler rejects a value that does not fit its field." -/
def AsmLine.wellFormed : AsmLine → Bool
  | .init       => true
  | .cmd b      => decide (b < 256)
  | .data b     => decide (b < 256)
  | .setcur r c => decide (r < 16) && decide (c < 256)
  | .clear      => true
  | .word w     => decide (w < 65536)
  | .prints _   => true

/-- R95: an assembler "writes ignored fields as zero". The block carries out the other requests all the same (R83). -/
def Instr.canonical : Instr → Bool
  | .init row arg   => decide (row = 0#4) && decide (arg = 0#8)
  | .cmd row _      => decide (row = 0#4)
  | .data row _     => decide (row = 0#4)
  | .setcur _ _     => true
  | .clear row arg  => decide (row = 0#4) && decide (arg = 0#8)

/-- R113: a WAIT lasts n cycles with 1 ≤ n ≤ 2^P_CNT_W − 1. -/
def Action.wellFormed (cfg : Config) : Action → Bool
  | .driveLow   => true
  | .wait n     => decide (1 ≤ n) && decide (n < 2 ^ cfg.cntW)
  | .nibble _ _ => true

/-- Whether an action is a WAIT. -/
def Action.isWait : Action → Bool
  | .wait _ => true
  | _       => false

/-- A program the sequencer can carry out: 1 to 19 actions (R26), each well-formed, the last a WAIT (R125). -/
def Program.wellFormed (cfg : Config) (P : Program) : Bool :=
  decide (1 ≤ P.length) && decide (P.length ≤ 19) && P.all (Action.wellFormed cfg) &&
    (P.getLast?.map Action.isWait).getD false

end Sys2Proof
end

