-- ==== Sys2Proof/Decode.lean ====
section
/-! DEFINITION. The request word: its fields, the decoder and the encoder (spec/30_encoding.md R80 to R85), and the
expansion of PRINTS (spec/42_display_ops.md R152). -/

namespace Sys2Proof

/-- The OP values of R82. -/
def opInit : Nibble := 0x1#4
/-- OP of CMD (R82). -/
def opCmd : Nibble := 0x2#4
/-- OP of DATA (R82). -/
def opData : Nibble := 0x3#4
/-- OP of SETCUR (R82). -/
def opSetcur : Nibble := 0x4#4
/-- OP of CLEAR (R82). -/
def opClear : Nibble := 0x5#4

/-- R81: `OP = req_word[15:12]`. -/
def opField (w : ReqWord) : Nibble := w.extractLsb' 12 4
/-- R81: `ROW = req_word[11:8]`. -/
def rowField (w : ReqWord) : Nibble := w.extractLsb' 8 4
/-- R81: `ARG = req_word[7:0]`. -/
def argField (w : ReqWord) : Byte := w.extractLsb' 0 8

/-- Why a word is no request. -/
inductive DecodeError where
  /-- R84: OP is 0x0 or 0x6 to 0xF. -/
  | reservedOp (op : Nibble)
deriving DecidableEq, Repr

/-- The decoder: "A decoder reads OP and nothing else to know the request" (R85). -/
def decode (w : ReqWord) : Except DecodeError Instr :=
  if opField w = opInit then .ok (.init (rowField w) (argField w))
  else if opField w = opCmd then .ok (.cmd (rowField w) (argField w))
  else if opField w = opData then .ok (.data (rowField w) (argField w))
  else if opField w = opSetcur then .ok (.setcur (rowField w) (argField w))
  else if opField w = opClear then .ok (.clear (rowField w) (argField w))
  else .error (.reservedOp (opField w))

/-- The word with the given fields, in the layout of R80. -/
def packWord (op row : Nibble) (arg : Byte) : ReqWord := op ++ row ++ arg

/-- The encoder: the word of a request (R80, R82). -/
def encode : Instr → ReqWord
  | .init row arg   => packWord opInit row arg
  | .cmd row arg    => packWord opCmd row arg
  | .data row arg   => packWord opData row arg
  | .setcur row arg => packWord opSetcur row arg
  | .clear row arg  => packWord opClear row arg

/-- OP of a request. -/
def Instr.op : Instr → Nibble
  | .init _ _   => opInit
  | .cmd _ _    => opCmd
  | .data _ _   => opData
  | .setcur _ _ => opSetcur
  | .clear _ _  => opClear

/-- ROW of a request. -/
def Instr.row : Instr → Nibble
  | .init r _   => r
  | .cmd r _    => r
  | .data r _   => r
  | .setcur r _ => r
  | .clear r _  => r

/-- ARG of a request. -/
def Instr.arg : Instr → Byte
  | .init _ a   => a
  | .cmd _ a    => a
  | .data _ a   => a
  | .setcur _ a => a
  | .clear _ a  => a

/-- The low `nbits` bits of `w` as a request word: what the host of the row asks about. -/
def tableWord (nbits w : Nat) : ReqWord := BitVec.ofNat 16 (w % 2 ^ nbits)

/-- The request the decoder reads from a word numbered as spec/opcode_table.json numbers it. There is one 16-bit word
to a request (R85), so its numbering is the request word's own. -/
def decodeTableWord (nbits w : Nat) : Option Instr :=
  match decode (tableWord nbits w) with
  | .ok i    => some i
  | .error _ => none

/-- R152: PRINTS is the DATA requests of the bytes before the first 0x00, in order; an absent text is none. ROW is
ignored by DATA and written as zero (R95). -/
def printsRequests : Option (List Byte) → List Instr
  | none      => []
  | some text => (text.takeWhile (fun b => b != 0x00#8)).map (Instr.data 0x0#4)

end Sys2Proof
end

