-- ==== Sys2Proof/Machine/State.lean ====
section
/-! DEFINITION. The machine's state as plain data: the hardware registers (spec/10_state.md R24), the ports as the host
drives them (R20, R22), the model-only state (R31 to R34), the configuration (spec/00_scope.md R6), and the reasons a
step can stop. -/

namespace Sys2Proof.Machine

/-- The register `fsm` (R24): IDLE = 0, RUN = 1. -/
inductive Fsm where
  | idle
  | run
deriving DecidableEq, Repr

/-- The register `ph` (R24): SETUP = 0, HIGH = 1, TAIL = 2, WAIT = 3. -/
inductive Phase where
  | setup
  | high
  | tail
  | wait
deriving DecidableEq, Repr

/-- The levels on the six output lines in one cycle (R20, R25). -/
structure Lines where
  db : Nibble
  rs : Level
  e  : Level
deriving DecidableEq, Repr

/-- One entry `(t, rs, nib)` of the sample log (R31). -/
structure Sample where
  t   : Nat
  rs  : Level
  nib : Nibble
deriving DecidableEq, Repr

/-- The controller phases of the contract monitor (R33, spec/60_exceptions.md R183). -/
inductive MPhase where
  | uninit
  | pending4
  | configuredOff
  | ready
  | readyEntry
  | unknown
deriving DecidableEq, Repr

/-- The caller-contract violations (R33). -/
inductive Violation where
  /-- V_DOUBLE_INIT (R184) -/
  | doubleInit
  /-- V_BEFORE_INIT (R185) -/
  | beforeInit
  /-- V_CURSOR_RANGE (R186) -/
  | cursorRange
  /-- V_ABORTED (R187, R189) -/
  | aborted
deriving DecidableEq, Repr

/-- The violation set `V` (R33): for each violation, whether it is in the set. -/
structure Violations where
  doubleInit  : Bool
  beforeInit  : Bool
  cursorRange : Bool
  aborted     : Bool
deriving DecidableEq, Repr

/-- `V = {}`. -/
def Violations.none : Violations := ⟨false, false, false, false⟩

/-- The contract monitor (R33): `mphase` and `V`. -/
structure Monitor where
  mphase : MPhase
  viol   : Violations
deriving DecidableEq, Repr

/-- The levels the host drives on the input ports in one cycle (R20; `clk` is the step itself). -/
structure Port where
  rst      : Level
  reqValid : Level
  reqWord  : ReqWord
deriving DecidableEq, Repr

/-- What the host does, one item after another (spec/70_reset_and_hazards.md R205). The first item that takes time
gives the port levels of the current cycle. -/
inductive HostAct where
  /-- Drive these levels in this cycle and in `more` further ones, whatever the block does. -/
  | drive (p : Port) (more : Nat)
  /-- Drive `req_valid = 1` with this word, `rst = 0`, until the edge that accepts it (R22, R205). -/
  | offer (w : ReqWord)
  /-- A controller power cycle, between two edges (R189). DEDUCED (notes/assumptions/11.md). -/
  | powerCycle
  /-- Ask the model for an initialization sequence other than R130's, which no request word names (R143).
  DESIGN CHOICE (notes/assumptions/7.md). -/
  | otherInit
deriving DecidableEq, Repr

/-- The whole machine in one cycle. -/
structure State where
  /-- The elaboration parameters (R6): constant. DESIGN CHOICE (notes/assumptions/1.md). -/
  cfg     : Config
  /-- `fsm` (R24). -/
  fsm     : Fsm
  /-- `op_r` (R24): OP of the request being carried out. -/
  opR     : Nibble
  /-- `row_r` (R24). -/
  rowR    : Nibble
  /-- `arg_r` (R24). -/
  argR    : Byte
  /-- `ap` (R24): index of the current action. -/
  ap      : BitVec 5
  /-- `ph` (R24). -/
  ph      : Phase
  /-- `cnt` (R24): cycles left in the current phase, this one counted; below 2^P_CNT_W (R27).
  DESIGN CHOICE: a Nat, because the width is a parameter (notes/assumptions/9.md). -/
  cnt     : Nat
  /-- `db_r` (R24), the nibble on `lcd_db`. -/
  dbR     : Nibble
  /-- `rs_r` (R24), the level on `lcd_rs`. -/
  rsR     : Level
  /-- `e_r` (R24), the level on `lcd_e`. -/
  eR      : Level
  /-- Ghost: the sample log `S` (R31), oldest first. -/
  samples : List Sample
  /-- Ghost: `t`, the number of the edge that began this cycle (R32). -/
  t       : Nat
  /-- Ghost: the contract monitor (R33). -/
  mon     : Monitor
  /-- Ghost: the refusal mark (R34). -/
  refused : Bool
  /-- The model's own: how many free values have been drawn (R201; notes/assumptions/4.md). -/
  freeCtr : Nat
  /-- The model's own: what the host does from this cycle on (R205). DESIGN CHOICE
  (notes/assumptions/2.md). Empty: `rst = 0` and no
  request, for ever. -/
  host    : List HostAct
deriving DecidableEq, Repr

/-- Why the machine stops. -/
inductive Fault where
  /-- A run step needs `expand` for a reserved OP value, for which R126 gives none ("They never reach it"). Raised by
  `runStep`, in no state a run reaches. SAFE. DESIGN CHOICE (notes/assumptions/10.md). -/
  | noProgram
deriving DecidableEq, Repr

/-- Why the model gives no step. -/
inductive Refusal where
  /-- An instruction whose meaning is still to be written (no arm raises it now). SAFE. -/
  | notModelled (mnemonic : String)
  /-- The elaboration has a zero wait, or `cnt` is too narrow for a parameter: R113 and U9 say a model refuses it.
  Raised by `step`. SAFE. DEDUCED (notes/assumptions/6.md). -/
  | illegalElaboration
deriving DecidableEq, Repr

/-- The machine right after the first reset edge, edge 0 (R32, R36, R202), for any elaboration and any host.
DESIGN CHOICE: nothing before that edge is represented (notes/assumptions/5.md). -/
def State.first (cfg : Config) (host : List HostAct) : State where
  cfg     := cfg
  fsm     := .idle
  opR     := 0x0#4
  rowR    := 0x0#4
  argR    := 0x00#8
  ap      := 0#5
  ph      := .wait
  cnt     := 0
  dbR     := 0x0#4
  rsR     := false
  eR      := false
  samples := []
  t       := 0
  mon     := ⟨.uninit, Violations.none⟩
  refused := false
  freeCtr := 0
  host    := host

/-- The machine right after reset, in the reference configuration, with a host that presents nothing. -/
def State.reset : State := State.first Config.reference []

end Sys2Proof.Machine
end

