-- ==== Sys2Proof/Machine/Flags.lean ====
section
/-! DEFINITION. The ports. The block has no flags and no condition codes (spec/10_state.md R28): `req_ready` and `busy`
are the only status (R21), and the six lines are the registers themselves (R25). Also: what the host drives in the
current cycle, and how its list of acts moves on at an edge (R22, R205). -/

namespace Sys2Proof.Machine

/-- The port levels when the host does nothing: `rst = 0`, no request. -/
def Port.quiet : Port := ⟨false, false, 0#16⟩

/-- The port levels of the current cycle. Events between edges (a power cycle, an `otherInit`) take no cycle. -/
def portOf : List HostAct → Port
  | []               => Port.quiet
  | .drive p _ :: _  => p
  | .offer w :: _    => ⟨false, true, w⟩
  | .powerCycle :: r => portOf r
  | .otherInit :: r  => portOf r

/-- The port levels the machine sees in the current cycle. -/
def State.port (s : State) : Port := portOf s.host

/-- `req_ready = (fsm == IDLE) and (rst == 0)` (R21). -/
def State.reqReady (s : State) : Level := decide (s.fsm = .idle) && !s.port.rst

/-- `busy = not req_ready` (R21). -/
def State.busy (s : State) : Level := !s.reqReady

/-- The output lines: `lcd_db = db_r`, `lcd_rs = rs_r`, `lcd_e = e_r` (R25). -/
def State.lines (s : State) : Lines := ⟨s.dbR, s.rsR, s.eR⟩

/-- R22: the next edge accepts a request: `rst == 0`, `fsm == IDLE` and `req_valid == 1` in this cycle. -/
def State.accepts (s : State) : Bool := s.reqReady && s.port.reqValid

/-- The host's acts after an edge: a driven cycle is over; an offered request is over when the edge accepted it. -/
def hostAfterEdge (accepted : Bool) : List HostAct → List HostAct
  | []                    => []
  | .drive _ 0 :: r       => r
  | .drive p (n + 1) :: r => .drive p n :: r
  | .offer w :: r         => if accepted then r else .offer w :: r
  | .powerCycle :: r      => .powerCycle :: r
  | .otherInit :: r       => .otherInit :: r

/-- The host's acts after `n` edges that accept no request. -/
def hostAfterEdges : Nat → List HostAct → List HostAct
  | 0,     h => h
  | n + 1, h => hostAfterEdges n (hostAfterEdge false h)

/-- Whether the host's next act is an event between edges. -/
def eventNext : List HostAct → Bool
  | .powerCycle :: _ => true
  | .otherInit :: _  => true
  | _                => false

/-- The host holds `rst = 0` and causes no event for the next `n` edges, none of which accepts a request. -/
def quietFor : Nat → List HostAct → Bool
  | 0,     _ => true
  | n + 1, h => !eventNext h && !(portOf h).rst && quietFor n (hostAfterEdge false h)

/-- R213 (2): the host has no further request to present. -/
def noFurtherRequest : List HostAct → Bool
  | []               => true
  | .drive p _ :: r  => !p.reqValid && noFurtherRequest r
  | .offer _ :: _    => false
  | .powerCycle :: r => noFurtherRequest r
  | .otherInit :: r  => noFurtherRequest r

/-- A host that presents these words, each as soon as the one before is accepted (the programs P1 to P6). -/
def hostOffering (words : List ReqWord) : List HostAct := words.map .offer

end Sys2Proof.Machine
end

