-- ==== Sys2Proof/Machine/Elaboration.lean ====
section
/-! DEFINITION. Which configurations are elaborations the block can run (spec/00_scope.md R6, spec/10_state.md R27,
spec/40_pin_interface.md R113, U9), and the premises about the attached controller (R7, R119, R206, U7). -/

namespace Sys2Proof

/-- The nine cycle parameters of R27's maximum. -/
def Config.cycleParams (cfg : Config) : List Nat :=
  [cfg.eLow, cfg.eHigh, cfg.tPowerOn, cfg.tResetGap1, cfg.tResetGap2, cfg.tResetGap3, cfg.tWidthSettle,
    cfg.tInitSettle, cfg.tByteGap]

/-- The largest of the cycle parameters (R27). -/
def Config.largest (cfg : Config) : Nat := cfg.cycleParams.foldr max 0

/-- The constraints without which a model refuses the elaboration (U9, R113, R27): no cycle parameter is zero, and
`cnt` is wide enough for every one of them. -/
def Config.elaborates (cfg : Config) : Bool :=
  cfg.cycleParams.all fun n => decide (1 ≤ n) && decide (n < 2 ^ cfg.cntW)

/-- The constraints of R6 that are stated in time: each level of E at least 450 ns (R119), and the power-on wait at
least 40 ms. No rule of the step reads them (R7); they are premises of a claim about the controller. -/
def Config.meetsControllerTiming (cfg : Config) : Bool :=
  decide (0 < cfg.clkHz) && decide (450 * cfg.clkHz ≤ cfg.eLow * 1000000000) &&
    decide (450 * cfg.clkHz ≤ cfg.eHigh * 1000000000) && decide (40 * cfg.clkHz ≤ cfg.tPowerOn * 1000)

/-- R6, R206: the waits after bytes cover a controller that needs `execCycles` cycles for its longest command. The
spec gives no such time, so it is an argument. -/
def Config.waitsCover (cfg : Config) (execCycles : Nat) : Bool :=
  decide (execCycles ≤ cfg.tInitSettle) && decide (execCycles ≤ cfg.tByteGap)

/-- R6: P_DISPCTL "must turn the display on". PRESUMED: the bit is read in the layout of R90, general knowledge (G3;
notes/assumptions/14.md). -/
def Config.turnsDisplayOn (cfg : Config) : Bool := decide (cfg.dispCtl &&& 0xFC#8 = 0x0C#8)

/-- Every constraint of R6's table but the ones that name the controller's own execution time (`waitsCover`). -/
def Config.legal (cfg : Config) : Bool :=
  cfg.elaborates && cfg.meetsControllerTiming && cfg.turnsDisplayOn && decide (1 ≤ cfg.rows) && decide (1 ≤ cfg.cols)

end Sys2Proof
end

