-- ==== Sys2Proof/Machine/Operands.lean ====
section
/-! DEFINITION. Operand forms: the nibbles of a byte, the set-cursor command byte, the action programs of the five
requests and `expand` (spec/40_pin_interface.md R111, R120, R126; spec/41_initialize.md R130; spec/42_display_ops.md). -/

namespace Sys2Proof.Machine

/-- `(b >> 4) & 0xF` (R63, R111). -/
def highNibble (b : Byte) : Nibble := ((b >>> 4) &&& 0x0F#8).setWidth 4

/-- `b & 0xF` (R63, R111). -/
def lowNibble (b : Byte) : Nibble := (b &&& 0x0F#8).setWidth 4

/-- RS at the COMMAND level is low (R13, R114). -/
def commandLevel : Level := false

/-- RS at the DATA level is high (R13, R114). -/
def dataLevel : Level := true

/-- R120: `BYTE(b, m, g)`, high nibble first, then the trailing wait. -/
def byteProgram (b : Byte) (m : Level) (g : Nat) : Program :=
  [.nibble (highNibble b) m, .nibble (lowNibble b) m, .wait g]

/-- `base(row)` of R153: 0x00 for row 0, 0x40 for every other row. -/
def rowBase (row : Nibble) : Byte := if row = 0x0#4 then 0x00#8 else 0x40#8

/-- `setcur_byte(row, col)` of R153. -/
def setcurByte (row : Nibble) (col : Byte) : Byte := 0x80#8 ||| rowBase row ||| col

/-- The clear-display command byte (R89). -/
def clearDisplayByte : Byte := 0x01#8

/-- The return-home command byte (R89). -/
def returnHomeByte : Byte := 0x02#8

/-- `prog_INIT` (R130): 19 actions, steps (a) to (g). -/
def progInit (cfg : Config) : Program :=
  [.driveLow, .wait cfg.tPowerOn,
   .nibble cfg.resetNibble commandLevel, .wait cfg.tResetGap1,
   .nibble cfg.resetNibble commandLevel, .wait cfg.tResetGap2,
   .nibble cfg.resetNibble commandLevel, .wait cfg.tResetGap3,
   .nibble cfg.widthNibble commandLevel, .wait cfg.tWidthSettle]
  ++ byteProgram cfg.funcSet commandLevel cfg.tInitSettle
  ++ byteProgram cfg.dispCtl commandLevel cfg.tInitSettle
  ++ byteProgram cfg.entry commandLevel cfg.tInitSettle

/-- `prog_CMD(b)` (R150). -/
def progCmd (cfg : Config) (b : Byte) : Program := byteProgram b commandLevel cfg.tByteGap

/-- `prog_DATA(b)` (R151). -/
def progData (cfg : Config) (b : Byte) : Program := byteProgram b dataLevel cfg.tByteGap

/-- `prog_SETCUR(r, c)` (R154). -/
def progSetcur (cfg : Config) (row : Nibble) (col : Byte) : Program :=
  byteProgram (setcurByte row col) commandLevel cfg.tByteGap

/-- `prog_CLEAR` (R155). -/
def progClear (cfg : Config) : Program :=
  byteProgram clearDisplayByte commandLevel cfg.tByteGap ++ byteProgram returnHomeByte commandLevel cfg.tByteGap

/-- `expand(op, row, arg)` (R126); `none` for a reserved OP value, for which it "is not defined". -/
def expand (cfg : Config) (op row : Nibble) (arg : Byte) : Option Program :=
  if op = opInit then some (progInit cfg)
  else if op = opCmd then some (progCmd cfg arg)
  else if op = opData then some (progData cfg arg)
  else if op = opSetcur then some (progSetcur cfg row arg)
  else if op = opClear then some (progClear cfg)
  else none

/-- The program of the request that the registers hold (R124: `P = expand(op_r, row_r, arg_r)`). -/
def State.program (s : State) : Option Program := expand s.cfg s.opR s.rowR s.argR

/-- The program of a request (R87). -/
def requestProgram (cfg : Config) : Instr → Program
  | .init _ _       => progInit cfg
  | .cmd _ arg      => progCmd cfg arg
  | .data _ arg     => progData cfg arg
  | .setcur row arg => progSetcur cfg row arg
  | .clear _ _      => progClear cfg

end Sys2Proof.Machine
end

