-- ==== Sys2Proof/Machine/Monitor.lean ====
section
/-! DEFINITION. The contract monitor (spec/60_exceptions.md R183 to R189). It is model-only: no hardware rule reads it. -/

namespace Sys2Proof.Machine

/-- `V ∪ {v}`. -/
def Violations.add (V : Violations) : Violation → Violations
  | .doubleInit  => { V with doubleInit := true }
  | .beforeInit  => { V with beforeInit := true }
  | .cursorRange => { V with cursorRange := true }
  | .aborted     => { V with aborted := true }

/-- `v ∈ V`. -/
def Violations.has (V : Violations) : Violation → Bool
  | .doubleInit  => V.doubleInit
  | .beforeInit  => V.beforeInit
  | .cursorRange => V.cursorRange
  | .aborted     => V.aborted

/-- `violate(v)` (R11). -/
def Monitor.violate (m : Monitor) (v : Violation) : Monitor := { m with viol := m.viol.add v }

/-- R186: SETCUR is out of range when ROW ≥ P_ROWS or ARG ≥ P_COLS. -/
def cursorOutOfRange (cfg : Config) (row : Nibble) (arg : Byte) : Bool :=
  decide (cfg.rows ≤ row.toNat) || decide (cfg.cols ≤ arg.toNat)

/-- `monitor_accept` for INIT (R183, R184). -/
def Monitor.acceptInit (m : Monitor) : Monitor :=
  if m.mphase = .uninit then m else { m.violate .doubleInit with mphase := .unknown }

/-- `monitor_accept` for CMD, DATA, SETCUR and CLEAR, the part they share (R183, R185). -/
def Monitor.acceptDisplay (m : Monitor) : Monitor :=
  if m.mphase = .readyEntry then m else m.violate .beforeInit

/-- `monitor_accept` for SETCUR (R183, R185, R186). -/
def Monitor.acceptSetcur (cfg : Config) (row : Nibble) (arg : Byte) (m : Monitor) : Monitor :=
  if cursorOutOfRange cfg row arg then m.acceptDisplay.violate .cursorRange else m.acceptDisplay

/-- The phase that `monitor_sample` gives an INIT at action `ap` (R183). -/
def initPhaseAt (ap : Nat) (was : MPhase) : MPhase :=
  if ap = 6 then .pending4
  else if ap = 11 then .configuredOff
  else if ap = 14 then .ready
  else if ap = 17 then .readyEntry
  else was

/-- `monitor_sample` (R183). -/
def Monitor.sample (op : Nibble) (ap : BitVec 5) (m : Monitor) : Monitor :=
  if op = opInit ∧ m.mphase ≠ .unknown then { m with mphase := initPhaseAt ap.toNat m.mphase } else m

/-- A reset edge with `fsm == RUN` before it (R187); with `fsm == IDLE` nothing changes. -/
def Monitor.reset (fsm : Fsm) (m : Monitor) : Monitor :=
  match fsm with
  | .idle => m
  | .run  => { m.violate .aborted with mphase := .unknown }

/-- A controller power cycle (R189). -/
def Monitor.powerCycle (fsm : Fsm) (m : Monitor) : Monitor :=
  match fsm with
  | .idle => { m with mphase := .uninit }
  | .run  => { m.violate .aborted with mphase := .unknown }

end Sys2Proof.Machine
end

