-- ==== Sys2Proof/Machine/Ops.lean ====
section
/-! DEFINITION. The named operations over the registers: entering an action, accepting a request, the run step, the
reset edge, and the host's events (spec/40_pin_interface.md R112 to R125; spec/60_exceptions.md R182, R187, R189;
spec/70_reset_and_hazards.md R200, R201). The block raises no exception and has no trap entry or return (R180, R191), and
it has no memory (R60): there is no such operation here. -/

namespace Sys2Proof.Machine

/-- The edge itself: its number (R32), and the host's acts moved on. -/
def State.tick (s : State) (accepted : Bool) : State :=
  { s with t := s.t + 1, host := hostAfterEdge accepted s.host }

/-- `ph <- p; cnt <- n`. -/
def State.startPhase (s : State) (p : Phase) (n : Nat) : State := { s with ph := p, cnt := n }

/-- `db_r <- v; rs_r <- m; e_r <- e`. -/
def State.driveLines (s : State) (v : Nibble) (m e : Level) : State := { s with dbR := v, rsR := m, eR := e }

/-- `e_r <- e`. -/
def State.setE (s : State) (e : Level) : State := { s with eR := e }

/-- `cnt <- cnt - 1`. -/
def State.countDown (s : State) : State := { s with cnt := s.cnt - 1 }

/-- The register writes of an acceptance but for the entered action (R123). -/
def State.latch (s : State) (op row : Nibble) (arg : Byte) : State :=
  { s with opR := op, rowR := row, argR := arg, fsm := .run, ap := 0#5 }

/-- `ap <- ap + 1`. -/
def State.advance (s : State) : State := { s with ap := s.ap + 1#5 }

/-- `fsm <- IDLE` (R125). -/
def State.complete (s : State) : State := { s with fsm := .idle }

/-- Replace the contract monitor. -/
def State.withMon (s : State) (m : Monitor) : State := { s with mon := m }

/-- `sample(rs_r, db_r)` (R116), stamped with the current edge. -/
def State.logSample (s : State) : State := { s with samples := s.samples ++ [⟨s.t, s.rsR, s.dbR⟩] }

/-- The sample `(t, ?, ?)` of a falling E that reset causes (R201): both values are free values. -/
def State.logUnknown (s : State) : State :=
  { s with samples := s.samples ++ [⟨s.t, Config.freeRs s.freeCtr, Config.freeNib s.freeCtr⟩],
           freeCtr := s.freeCtr + 1 }

/-- `refuse(reason)` (R11, R34). -/
def State.refuse (s : State) : State := { s with refused := true }

/-- The reset values of the hardware registers (R36). -/
def State.clearRegs (s : State) : State :=
  { s with fsm := .idle, opR := 0x0#4, rowR := 0x0#4, argR := 0x00#8, ap := 0#5, ph := .wait, cnt := 0,
           dbR := 0x0#4, rsR := false, eR := false }

/-- `enter(a)` (R122). -/
def enter (a : Action) (s : State) : State :=
  match a with
  | .driveLow   => (s.driveLines 0x0#4 false false).startPhase .wait 1
  | .wait n     => s.startPhase .wait n
  | .nibble v m => (s.driveLines v m false).startPhase .setup s.cfg.eLow

/-- Enter the first action of a program. Every program has one (R130, R150 to R155). -/
def enterFirst (P : Program) (s : State) : State :=
  match P with
  | []     => s
  | a :: _ => enter a s

/-- Acceptance of a request with a defined OP (R123): `mon` is the monitor after `monitor_accept`, `P` its program. -/
def accept (op row : Nibble) (arg : Byte) (mon : Monitor) (P : Program) (s : State) : State :=
  enterFirst P ((s.withMon mon).latch op row arg)

/-- Acceptance of a reserved request (R182): the hardware changes no register; the model sets `refused`. -/
def acceptReserved (s : State) : State := s.refuse

/-- The end of the current action (R124, TAIL and WAIT): enter the next one, or complete the request. -/
def endAction (P : Program) (s : State) : State :=
  match P[s.ap.toNat + 1]? with
  | some a => enter a s.advance
  | none   => s.complete

/-- The end of a HIGH phase (R124): E falls, and the controller samples (R116, `monitor_sample` of R183). -/
def fallE (s : State) : State :=
  ((s.logSample.withMon (s.mon.sample s.opR s.ap)).setE false).startPhase .tail s.cfg.eLow

/-- The end of the current phase (R124). -/
def endPhase (P : Program) (s : State) : State :=
  match s.ph with
  | .setup => (s.setE true).startPhase .high s.cfg.eHigh
  | .high  => fallE s
  | .tail  => endAction P s
  | .wait  => endAction P s

/-- The run step of R124 with `P` the program of the request being carried out. -/
def runEdge (P : Program) (s : State) : State :=
  if 1 < s.cnt then s.countDown else endPhase P s

/-- The run step (R124). `expand` is not defined for a reserved OP value (R126): there the machine is stuck. -/
def runStep (s : State) : Host.Outcome State Fault Refusal :=
  match s.program with
  | none   => .fault .noProgram
  | some P => .next (runEdge P s)

/-- A falling E caused by reset is a sample of unknown values (R31, R201). DEDUCED: whatever `fsm` is
(notes/assumptions/13.md). -/
def resetSample (s : State) : State :=
  match s.eR with
  | true  => s.logUnknown
  | false => s

/-- An edge with `rst == 1` (R200, R201, R187). -/
def resetEdge (s : State) : State :=
  ((resetSample s).withMon (s.mon.reset s.fsm)).clearRegs

/-- A controller power cycle (R189): the block is not touched. -/
def powerCycle (s : State) : State := s.withMon (s.mon.powerCycle s.fsm)

/-- The model is asked for another initialization sequence (R143): it sets `refused`. -/
def askOtherInit (s : State) : State := s.refuse

end Sys2Proof.Machine
end

