-- ==== Sys2Proof/Machine/Display.lean ====
section
/-! DEFINITION. The meanings of the display operations CMD, DATA, SETCUR and CLEAR (spec/42_display_ops.md R150 to R155):
what their acceptance does (R123). The rest of each program is carried out by the run step. -/

namespace Sys2Proof.Machine

/-- CMD (R150, R123, R185). -/
def execCmd (row : Nibble) (arg : Byte) (s : State) : Host.Outcome State Fault Refusal :=
  .next (accept opCmd row arg s.mon.acceptDisplay (progCmd s.cfg arg) s)

/-- DATA (R151, R123, R185). -/
def execData (row : Nibble) (arg : Byte) (s : State) : Host.Outcome State Fault Refusal :=
  .next (accept opData row arg s.mon.acceptDisplay (progData s.cfg arg) s)

/-- SETCUR (R154, R123, R185, R186). -/
def execSetcur (row : Nibble) (arg : Byte) (s : State) : Host.Outcome State Fault Refusal :=
  .next (accept opSetcur row arg (s.mon.acceptSetcur s.cfg row arg) (progSetcur s.cfg row arg) s)

/-- CLEAR (R155, R123, R185). -/
def execClear (row : Nibble) (arg : Byte) (s : State) : Host.Outcome State Fault Refusal :=
  .next (accept opClear row arg s.mon.acceptDisplay (progClear s.cfg) s)

end Sys2Proof.Machine
end

