-- ==== Sys2Proof/Machine/Init.lean ====
section
/-! DEFINITION. The meaning of INIT (spec/41_initialize.md R130): what its acceptance does (R123). The rest of its
program is carried out by the run step. -/

namespace Sys2Proof.Machine

/-- INIT (R130, R123, R184). -/
def execInit (row : Nibble) (arg : Byte) (s : State) : Host.Outcome State Fault Refusal :=
  .next (accept opInit row arg s.mon.acceptInit (progInit s.cfg) s)

end Sys2Proof.Machine
end

