-- ==== Sys2Proof/Machine/Dispatch.lean ====
section
/-! DEFINITION. One arm per request of the opcode table: what its acceptance does (spec/40_pin_interface.md R123). -/

namespace Sys2Proof.Machine

def exec (i : Instr) (s : State) : Host.Outcome State Fault Refusal :=
  match i with
  | .init row arg => Sys2Proof.Machine.execInit row arg s
  | .cmd row arg => Sys2Proof.Machine.execCmd row arg s
  | .data row arg => Sys2Proof.Machine.execData row arg s
  | .setcur row arg => Sys2Proof.Machine.execSetcur row arg s
  | .clear row arg => Sys2Proof.Machine.execClear row arg s

end Sys2Proof.Machine
end

