-- ==== Sys2Proof/Machine/Edge.lean ====
section
/-! DEFINITION. One rising edge of `clk` (spec/60_exceptions.md R190): reset before everything, else an acceptance, a run
step or nothing; and what withFetchWord sets so that the next edge accepts a given word. -/

namespace Sys2Proof.Machine

/-- The acceptance of a word (R123): its request's meaning, or the drop of a reserved request (R182). -/
def acceptWord (w : ReqWord) (s : State) : Host.Outcome State Fault Refusal :=
  match decode w with
  | .ok i    => exec i s
  | .error _ => .next (acceptReserved s)

/-- An edge with `rst == 0` and `fsm == IDLE` (R123, R124). -/
def idleEdge (p : Port) (s : State) : Host.Outcome State Fault Refusal :=
  match p.reqValid with
  | true  => acceptWord p.reqWord s
  | false => .next s

/-- What the edge does to the ticked state, with `p` the port levels of the cycle before it (R190). -/
def edgeWith (p : Port) (s : State) : Host.Outcome State Fault Refusal :=
  match p.rst with
  | true  => .next (resetEdge s)
  | false =>
    match s.fsm with
    | .idle => idleEdge p s
    | .run  => runStep s

/-- One rising edge (R10, R190). -/
def edge (s : State) : Host.Outcome State Fault Refusal := edgeWith s.port (s.tick s.accepts)

/-- One step: an event of the host between edges (R189, R143), or an edge. -/
def stepOnce (s : State) : Host.Outcome State Fault Refusal :=
  match s.host with
  | .powerCycle :: r => .next (powerCycle { s with host := r })
  | .otherInit :: r  => .next (askOtherInit { s with host := r })
  | _                => edge s

/-- A legal elaboration steps; another is refused (R113, U9). -/
def stepLegal (s : State) : Host.Outcome State Fault Refusal :=
  match s.cfg.elaborates with
  | true  => stepOnce s
  | false => .refused .illegalElaboration

/-- The block idle and the word presented in this cycle, before whatever else the host does (R22).
DESIGN CHOICE (notes/assumptions/2.md). -/
def presentWord (w : ReqWord) (s : State) : State :=
  { s with fsm := .idle, host := .drive ⟨false, true, w⟩ 0 :: s.host }

end Sys2Proof.Machine
end

