-- ==== Sys2Proof/Machine/Step.lean ====
section
/-! DEFINITION. The step of the machine: one rising edge of `clk`, or one event of the host between edges
(spec/00_scope.md R10, spec/60_exceptions.md R190). -/

namespace Sys2Proof.Machine

/-- One step. DEDUCED: one edge, or one event of the host between edges (notes/assumptions/3.md). -/
def step (s : State) : Host.Outcome State Fault Refusal := stepLegal s

/-- The state with an instruction presented on the request port, so that the very next step accepts it. -/
def State.withFetchWord (s : State) (nbits w : Nat) : State := presentWord (tableWord nbits w) s

end Sys2Proof.Machine
end

