-- ==== Sys2Proof/Machine/Assembler.lean ====
section
/-! DEFINITION. The textual form of requests (spec/30_encoding.md R95 to R97): parsing a line, assembling it into request
words, disassembling a word and printing a line. Text is a list of characters. What R95 leaves open of the text (white
space, escapes, how r and w are written, the printed number form) is notes/assumptions/8.md (DESIGN CHOICE; the ASCII codes
PRESUMED). -/

namespace Sys2Proof.Machine

/-- The words of a line (R95, R96), or `none` where an operand does not fit its field. -/
def assemble (l : AsmLine) : Option (List ReqWord) :=
  match l.wellFormed, l with
  | false, _           => none
  | true, .init        => some [encode (.init 0x0#4 0x00#8)]
  | true, .cmd b       => some [encode (.cmd 0x0#4 (BitVec.ofNat 8 b))]
  | true, .data b      => some [encode (.data 0x0#4 (BitVec.ofNat 8 b))]
  | true, .setcur r c  => some [encode (.setcur (BitVec.ofNat 4 r) (BitVec.ofNat 8 c))]
  | true, .clear       => some [encode (.clear 0x0#4 0x00#8)]
  | true, .word w      => some [BitVec.ofNat 16 w]
  | true, .prints text => some ((printsRequests text).map encode)

/-- The line a disassembler prints for a word (R97). -/
def disassemble (w : ReqWord) : AsmLine :=
  match decode w with
  | .ok (.init _ _)       => .init
  | .ok (.cmd _ arg)      => .cmd arg.toNat
  | .ok (.data _ arg)     => .data arg.toNat
  | .ok (.setcur row arg) => .setcur row.toNat arg.toNat
  | .ok (.clear _ _)      => .clear
  | .error _              => .word w.toNat

/-- Blank characters: space and tab. -/
def isBlank (c : Char) : Bool := c = ' ' || c = '\t'

/-- The text without blanks at either end. -/
def trim (cs : List Char) : List Char := ((cs.dropWhile isBlank).reverse.dropWhile isBlank).reverse

/-- An ASCII letter in lower case; another character unchanged ("case-insensitive", R95). -/
def lowerCase (c : Char) : Char := if 'A'.toNat ≤ c.toNat ∧ c.toNat ≤ 'Z'.toNat then Char.ofNat (c.toNat + 32) else c

/-- The value of a digit in base 16. -/
def digitValue (c : Char) : Option Nat :=
  let n := (lowerCase c).toNat
  if '0'.toNat ≤ n ∧ n ≤ '9'.toNat then some (n - '0'.toNat)
  else if 'a'.toNat ≤ n ∧ n ≤ 'f'.toNat then some (n - 'a'.toNat + 10)
  else none

/-- The value of the digits `cs` in `base`, after the digits already read. -/
def digitsFrom (base acc : Nat) : List Char → Option Nat
  | []      => some acc
  | c :: cs =>
    match digitValue c with
    | some d => if d < base then digitsFrom base (base * acc + d) cs else none
    | none   => none

/-- A number in decimal or as `0x..`. R95 gives these two forms for an 8-bit value. DESIGN CHOICE
(notes/assumptions/8.md): the 4-bit r of SETCUR and the 16-bit w of `.word`, whose written form R95 does not give, are
read in the same two forms, and a number may have leading zeros. -/
def parseNumber (cs : List Char) : Option Nat :=
  match cs.map lowerCase with
  | []                    => none
  | '0' :: 'x' :: []      => none
  | '0' :: 'x' :: d :: ds => digitsFrom 16 0 (d :: ds)
  | d :: ds               => digitsFrom 10 0 (d :: ds)

/-- An ASCII character's code (R9, G7). -/
def asciiCode (c : Char) : Option Nat := if c.toNat < 128 then some c.toNat else none

/-- A number or a quoted character (R95, the operand of DATA). -/
def parseNumberOrChar (cs : List Char) : Option Nat :=
  match cs with
  | ['\'', c, '\''] => asciiCode c
  | _               => parseNumber cs

/-- The bytes of a PRINTS text up to the closing quote; `\0` is the zero byte (as in vector PS-4). -/
def parseText : List Char → Option (List Byte)
  | []                => none
  | ['"']             => some []
  | '"' :: _ :: _     => none
  | '\\' :: '0' :: cs => (parseText cs).map (0x00#8 :: ·)
  | '\\' :: _         => none
  | c :: cs           =>
    match asciiCode c, parseText cs with
    | some n, some bs => some (BitVec.ofNat 8 n :: bs)
    | _, _            => none

/-- The operand of PRINTS: absent, or a text in double quotes (R96). -/
def parsePrints : List Char → Option AsmLine
  | []        => some (.prints none)
  | '"' :: cs => (parseText cs).map fun bs => .prints (some bs)
  | _         => none

/-- The two operands of SETCUR, separated by a comma (R95). DESIGN CHOICE (notes/assumptions/8.md): r is written as the
8-bit c is. -/
def parseSetcur (cs : List Char) : Option AsmLine :=
  match cs.dropWhile (· != ',') with
  | []        => none
  | _ :: rest =>
    match parseNumber (trim (cs.takeWhile (· != ','))), parseNumber (trim rest) with
    | some r, some c => some (.setcur r c)
    | _, _           => none

/-- A line without operands. -/
def parseBare (l : AsmLine) : List Char → Option AsmLine
  | []     => some l
  | _ :: _ => none

/-- A line's operand text after its mnemonic, parsed by the mnemonic (R95, R96). DESIGN CHOICE (notes/assumptions/8.md):
the w of `.word` is written as an 8-bit value is. -/
def parseOperands (mnemonic : List Char) (rest : List Char) : Option AsmLine :=
  if mnemonic = ['i', 'n', 'i', 't'] then parseBare .init rest
  else if mnemonic = ['c', 'm', 'd'] then (parseNumber rest).map .cmd
  else if mnemonic = ['d', 'a', 't', 'a'] then (parseNumberOrChar rest).map .data
  else if mnemonic = ['s', 'e', 't', 'c', 'u', 'r'] then parseSetcur rest
  else if mnemonic = ['c', 'l', 'e', 'a', 'r'] then parseBare .clear rest
  else if mnemonic = ['.', 'w', 'o', 'r', 'd'] then (parseNumber rest).map .word
  else if mnemonic = ['p', 'r', 'i', 'n', 't', 's'] then parsePrints rest
  else none

/-- One line of text (R95: "one per line, case-insensitive"). -/
def parseLine (text : List Char) : Option AsmLine :=
  let cs := trim text
  parseOperands ((cs.takeWhile (! isBlank ·)).map lowerCase) (trim (cs.dropWhile (! isBlank ·)))

/-- One line of text assembled into words; `none` where it is no line of R95 or R96 or an operand does not fit. -/
def assembleText (text : List Char) : Option (List ReqWord) := (parseLine text).bind assemble

/-- One hexadecimal digit. -/
def hexDigit (n : Nat) : Char := if n < 10 then Char.ofNat ('0'.toNat + n) else Char.ofNat ('a'.toNat + (n - 10))

/-- `n` in exactly `k` hexadecimal digits. -/
def hexDigits : Nat → Nat → List Char
  | 0,     _ => []
  | k + 1, n => hexDigits k (n / 16) ++ [hexDigit (n % 16)]

/-- `0x` and `k` hexadecimal digits. -/
def hexText (k n : Nat) : List Char := '0' :: 'x' :: hexDigits k n

/-- The printed text of a disassembled word (R97). DESIGN CHOICE (notes/assumptions/8.md): ARG and ROW are printed in
hexadecimal, with the digits of their fields. R97 itself gives `.word 0x....`. -/
def printWord (w : ReqWord) : List Char :=
  match decode w with
  | .ok (.init _ _)       => ['I', 'N', 'I', 'T']
  | .ok (.cmd _ arg)      => ['C', 'M', 'D', ' '] ++ hexText 2 arg.toNat
  | .ok (.data _ arg)     => ['D', 'A', 'T', 'A', ' '] ++ hexText 2 arg.toNat
  | .ok (.setcur row arg) => ['S', 'E', 'T', 'C', 'U', 'R', ' '] ++ hexText 1 row.toNat ++ [',', ' '] ++ hexText 2 arg.toNat
  | .ok (.clear _ _)      => ['C', 'L', 'E', 'A', 'R']
  | .error _              => ['.', 'w', 'o', 'r', 'd', ' '] ++ hexText 4 w.toNat

end Sys2Proof.Machine
end

