-- ==== Sys2Proof/Machine/Observe.lean ====
section
/-! DEFINITION. A run of the block, its first end, and what is observed there (spec/70_reset_and_hazards.md R213). -/

namespace Sys2Proof.Machine

/-- R213: an end of a run: IDLE, no further request to present, and `rst == 0`. DEDUCED: the events of the cycle have
happened (notes/assumptions/15.md). -/
abbrev State.EndOfRun (s : State) : Prop :=
  s.fsm = .idle ∧ eventNext s.host = false ∧ noFurtherRequest s.host = true ∧ s.port.rst = false

/-- The states from `s` to the FIRST end of the run (R213), each the step of the one before; `none` if `k` steps do not
reach it or a step stops. -/
def statesToEnd : Nat → State → Option (List State)
  | 0,     s => if s.EndOfRun then some [s] else none
  | k + 1, s =>
    if s.EndOfRun then some [s]
    else
      match step s with
      | .next u    => (statesToEnd k u).map (s :: ·)
      | .fault _   => none
      | .refused _ => none

/-- R213: `ss` is the run of the block with these parameters and this host: "the sequence of states from the first reset
edge to the end of the run". -/
def IsRun (cfg : Config) (host : List HostAct) (ss : List State) : Prop :=
  ∃ k, statesToEnd k (State.first cfg host) = some ss

/-- The line levels in every cycle of these states, oldest first. A cycle is one state whose next step is an edge; the
states before an event of the host belong to the same cycle and have the same levels (notes/assumptions/15.md). -/
def cycleLevels (ss : List State) : List Lines := (ss.filter fun s => !eventNext s.host).map State.lines

/-- R213: what is observed at the end of a run. -/
structure Observation where
  /-- The line levels in every cycle: `levels[k]` are those of cycle k. -/
  levels  : List Lines
  /-- The sample log `S`. -/
  samples : List Sample
  /-- `mphase`. -/
  mphase  : MPhase
  /-- `V`. -/
  viol    : Violations
  /-- `refused`. -/
  refused : Bool
deriving DecidableEq, Repr

/-- The observation in a state, after cycles with these levels. -/
def State.observe (s : State) (levels : List Lines) : Observation :=
  ⟨levels, s.samples, s.mon.mphase, s.mon.viol, s.refused⟩

/-- R213: the observation at the end of a run: the levels in every cycle, and the model-only state in its last. -/
def observeRun (ss : List State) : Option Observation := ss.getLast?.map fun u => u.observe (cycleLevels ss)

end Sys2Proof.Machine
end

