-- ==== Sys2Proof/Machine/Timing.lean ====
section
/-! DEFINITION. What the rules say of an action program as a whole, apart from the step: its duration
(spec/40_pin_interface.md R118, R127), the samples it makes (R116, R128) and the line levels in each of its cycles
(R112 to R115). The step and these are held against each other by the obligations. -/

namespace Sys2Proof.Machine

/-- Cycles of one NIBBLE: 2L + H (R118). -/
def nibbleCycles (cfg : Config) : Nat := 2 * cfg.eLow + cfg.eHigh

/-- `dur(a)` (R118). -/
def actionDur (cfg : Config) : Action → Nat
  | .driveLow   => 1
  | .wait n     => n
  | .nibble _ _ => nibbleCycles cfg

/-- `D(P)` (R127). -/
def programDur (cfg : Config) : Program → Nat
  | []     => 0
  | a :: P => actionDur cfg a + programDur cfg P

/-- The samples an action makes when it is entered at edge `k`: a NIBBLE makes one, at edge k + L + H (R115, R116). -/
def actionSamples (cfg : Config) (k : Nat) : Action → List Sample
  | .driveLow   => []
  | .wait _     => []
  | .nibble v m => [⟨k + cfg.eLow + cfg.eHigh, m, v⟩]

/-- The samples of a program whose first action is entered at edge `k` (R128). -/
def programSamples (cfg : Config) (k : Nat) : Program → List Sample
  | []     => []
  | a :: P => actionSamples cfg k a ++ programSamples cfg (k + actionDur cfg a) P

/-- The values sampled, without their stamps. -/
def sampledValues (S : List Sample) : List (Level × Nibble) := S.map fun x => (x.rs, x.nib)

/-- All six lines low (R112). -/
def Lines.low : Lines := ⟨0x0#4, false, false⟩

/-- The levels in cycle `j` (from 0) of an action, with `was` the levels before it (R112, R113, R115). -/
def actionLines (cfg : Config) (was : Lines) (j : Nat) : Action → Lines
  | .driveLow   => Lines.low
  | .wait _     => was
  | .nibble v m => ⟨v, m, decide (cfg.eLow ≤ j) && decide (j < cfg.eLow + cfg.eHigh)⟩

/-- The levels an action leaves behind. -/
def linesAfter (was : Lines) : Action → Lines
  | .driveLow   => Lines.low
  | .wait _     => was
  | .nibble v m => ⟨v, m, false⟩

/-- The levels in cycle `j` (from 0) of a program, with `was` the levels before it; after its end they hold (R68). -/
def programLines (cfg : Config) : Lines → Program → Nat → Lines
  | was, [], _     => was
  | was, a :: P, j =>
    if j < actionDur cfg a then actionLines cfg was j a
    else programLines cfg (linesAfter was a) P (j - actionDur cfg a)

/-- The levels a program leaves behind (R68). -/
def linesAfterProgram : Lines → Program → Lines
  | was, []     => was
  | was, a :: P => linesAfterProgram (linesAfter was a) P

/-- D_INIT (R139). -/
def initDur (cfg : Config) : Nat :=
  1 + cfg.tPowerOn + cfg.tResetGap1 + cfg.tResetGap2 + cfg.tResetGap3 + cfg.tWidthSettle + 3 * cfg.tInitSettle
    + 10 * nibbleCycles cfg

end Sys2Proof.Machine
end

