-- ==== Sys2Proof/Safety.lean ====
section
/-! DEFINITION. What counts as a safe run and a claim about runs (spec/60_exceptions.md R188), the invariants
of the machine that the statements use, and whether an action is the one the registers are in the middle of. -/

namespace Sys2Proof.Machine

/-- `k` steps of the machine, stopping at the first fault or refusal. -/
def run : Nat → State → Host.Outcome State Fault Refusal
  | 0,     s => .next s
  | k + 1, s =>
    match step s with
    | .next u    => run k u
    | .fault r   => .fault r
    | .refused r => .refused r

/-- R188, R213: the premises of a claim about a run: `V` is empty and `refused` is false. -/
def State.Safe (s : State) : Prop := s.mon.viol = Violations.none ∧ s.refused = false

/-- R188: the same premises of what a run shows at its end. -/
def Observation.Safe (o : Observation) : Prop := o.viol = Violations.none ∧ o.refused = false

/-- R188, R213: a claim about runs takes `V = {}` and `refused = false` at the end as premises. `C` is what it says of a
run's elaboration, its host and its observation. -/
def ClaimOfRuns (C : Config → List HostAct → Observation → Prop) : Prop :=
  ∀ cfg h ss o, IsRun cfg h ss → observeRun ss = some o → o.Safe → C cfg h o

/-- Whether phase `ph`, count `cnt` and lines `l` are a moment of action `a` (R112 to R115): a NIBBLE presents its
nibble and level in all three phases with E high in HIGH only; a WAIT and DRIVE_LOW have E low; and the count lies
between 1 and the phase's length. -/
def DuringAction (cfg : Config) (a : Action) (ph : Phase) (cnt : Nat) (l : Lines) : Prop :=
  match a, ph with
  | .nibble v m, .setup => l = ⟨v, m, false⟩ ∧ 1 ≤ cnt ∧ cnt ≤ cfg.eLow
  | .nibble v m, .high  => l = ⟨v, m, true⟩ ∧ 1 ≤ cnt ∧ cnt ≤ cfg.eHigh
  | .nibble v m, .tail  => l = ⟨v, m, false⟩ ∧ 1 ≤ cnt ∧ cnt ≤ cfg.eLow
  | .wait n, .wait      => l.e = false ∧ 1 ≤ cnt ∧ cnt ≤ n
  | .driveLow, .wait    => l = Lines.low ∧ cnt = 1
  | _, _                => False

/-- The machine's registers agree with one another: idle with E low (R125), or at a moment of action `ap` of the
program of the request they hold (R24, R26). -/
def State.Coherent (s : State) : Prop :=
  match s.fsm with
  | .idle => s.eR = false
  | .run  => ∃ P a, s.program = some P ∧ P[s.ap.toNat]? = some a ∧ DuringAction s.cfg a s.ph s.cnt s.lines

/-- The stamps of the sample log rise strictly, and none is later than the current edge (R31, R32). -/
def State.LogOrdered (s : State) : Prop :=
  s.samples.Pairwise (fun x y => x.t < y.t) ∧ ∀ x ∈ s.samples, x.t ≤ s.t

/-! ### The premises and shapes the statements share -/

/-- The next step is an edge of a legal elaboration with these levels on `rst` and in `fsm` (R190). -/
abbrev State.EdgeWith (s : State) (rst : Level) (fsm : Fsm) : Prop :=
  s.cfg.elaborates = true ∧ eventNext s.host = false ∧ s.port.rst = rst ∧ s.fsm = fsm

/-- What every acceptance writes and keeps (R123): the request is latched, the block runs from action 0; the sample log,
the edge number, the refusal mark, the configuration and the host are untouched. -/
def Latched (op row : Nibble) (arg : Byte) (s t : State) : Prop :=
  t.fsm = .run ∧ t.opR = op ∧ t.rowR = row ∧ t.argR = arg ∧ t.ap = 0#5 ∧
  t.cfg = s.cfg ∧ t.samples = s.samples ∧ t.t = s.t ∧ t.refused = s.refused ∧ t.freeCtr = s.freeCtr ∧ t.host = s.host

/-- The entry of `NIBBLE(v, m)` as it shows in the registers (R114). -/
def NibbleEntered (v : Nibble) (m : Level) (t : State) : Prop :=
  t.dbR = v ∧ t.rsR = m ∧ t.eR = false ∧ t.ph = .setup ∧ t.cnt = t.cfg.eLow

/-- The contract monitor of CMD, DATA, SETCUR and CLEAR without the cursor check (R185). -/
def BeforeInitChecked (m m' : Monitor) : Prop :=
  (m.mphase = .readyEntry → m' = m) ∧
  (m.mphase ≠ .readyEntry → m'.mphase = m.mphase ∧ m'.viol = { m.viol with beforeInit := true })

/-- What a whole request leaves untouched between its acceptance `t` and its completion `u`. -/
def RequestFrame (t u : State) : Prop :=
  u.fsm = .idle ∧ u.eR = false ∧ u.cfg = t.cfg ∧ u.opR = t.opR ∧ u.rowR = t.rowR ∧ u.argR = t.argR ∧
  u.refused = t.refused ∧ u.freeCtr = t.freeCtr ∧ u.mon.viol = t.mon.viol

/-- A sample moved `k` edges later. -/
def Sample.shift (k : Nat) (x : Sample) : Sample := { x with t := k + x.t }

/-- Two requests that differ at most in fields their row of R82 does not list (R83). -/
def SameButIgnored : Instr → Instr → Prop
  | .init _ _,   .init _ _     => True
  | .cmd _ b,    .cmd _ b'     => b = b'
  | .data _ b,   .data _ b'    => b = b'
  | .setcur r c, .setcur r' c' => r = r' ∧ c = c'
  | .clear _ _,  .clear _ _    => True
  | _,           _             => False

/-- The edges from an idle cycle to the completion of the last of these requests, each presented as soon as the one before
is accepted: one edge to accept each, and its duration (R127). -/
def sequenceDur (cfg : Config) : List Instr → Nat
  | []      => 0
  | i :: is => 1 + programDur cfg (requestProgram cfg i) + sequenceDur cfg is

/-- The samples of these requests, the first accepted at edge `k + 1` (R70, R128). -/
def sequenceSamples (cfg : Config) (k : Nat) : List Instr → List Sample
  | []      => []
  | i :: is =>
    programSamples cfg (k + 1) (requestProgram cfg i) ++
      sequenceSamples cfg (k + 1 + programDur cfg (requestProgram cfg i)) is

/-- The line levels in every cycle of these requests, from an idle cycle with levels `was` to the idle cycle after the last
of them: the concatenation of the requests' traces, with one idle cycle before each in which the lines hold (R70). -/
def sequenceLevels (cfg : Config) : Lines → List Instr → List Lines
  | was, []      => [was]
  | was, i :: is =>
    was :: (List.range (programDur cfg (requestProgram cfg i))).map (programLines cfg was (requestProgram cfg i)) ++
      sequenceLevels cfg (linesAfterProgram was (requestProgram cfg i)) is

end Sys2Proof.Machine
end

