-- ==== Sys2Proof/Certificates/Slice0/Obligations.lean ====
section
/-! DEFINITION. The statements for the provers. Each docstring says which rule of spec/ the statement formalises. A step
is one edge of `clk` (R10) or one event of the host between edges; `exec` is the acceptance of a request (R123), and
`run n` is n steps. -/

open Sys2Proof Sys2Proof.Machine

/-! ### Encoding -/

/-- R80 to R82: the decoder reads back every field of every request the encoder writes. -/
def Obligations.EncodeDecodeRoundTrip : Prop :=
  ∀ i : Instr, decode (encode i) = .ok i

/-- R80, R81, R82, R84, R85: bits 15:12 alone decide the request, the other OP values are reserved, and no bit of a
request's word is lost. MODEL'S CHOICE, the last clause: a decoded request carries its ignored fields too, and so encodes
to the same word (DEDUCED, notes/assumptions/12.md). -/
def Obligations.DecodeReadsOpAlone : Prop :=
  ∀ w : ReqWord,
    (decode w = .ok (.init (w.extractLsb' 8 4) (w.extractLsb' 0 8)) ↔ w.extractLsb' 12 4 = 0x1#4) ∧
    (decode w = .ok (.cmd (w.extractLsb' 8 4) (w.extractLsb' 0 8)) ↔ w.extractLsb' 12 4 = 0x2#4) ∧
    (decode w = .ok (.data (w.extractLsb' 8 4) (w.extractLsb' 0 8)) ↔ w.extractLsb' 12 4 = 0x3#4) ∧
    (decode w = .ok (.setcur (w.extractLsb' 8 4) (w.extractLsb' 0 8)) ↔ w.extractLsb' 12 4 = 0x4#4) ∧
    (decode w = .ok (.clear (w.extractLsb' 8 4) (w.extractLsb' 0 8)) ↔ w.extractLsb' 12 4 = 0x5#4) ∧
    (decode w = .error (.reservedOp (w.extractLsb' 12 4)) ↔
      (w.extractLsb' 12 4 = 0x0#4 ∨ 0x6#4 ≤ w.extractLsb' 12 4)) ∧
    (∀ i, decode w = .ok i → encode i = w)

/-- R95 and the vectors CM-1, CM-4, DA-1, SC-4, IN-2, CL-2 of spec/95_test_vectors.md: words written out by hand. -/
def Obligations.SpecWordsDecode : Prop :=
  decodeTableWord 16 0b0001000000000000 = some (.init 0x0#4 0x00#8) ∧
  decodeTableWord 16 0b0001111111111111 = some (.init 0xF#4 0xFF#8) ∧
  decodeTableWord 16 0b0010000000101000 = some (.cmd 0x0#4 0x28#8) ∧
  decodeTableWord 16 0b0010101000000001 = some (.cmd 0xA#4 0x01#8) ∧
  decodeTableWord 16 0b0011000001000001 = some (.data 0x0#4 0x41#8) ∧
  decodeTableWord 16 0b0100000100000101 = some (.setcur 0x1#4 0x05#8) ∧
  decodeTableWord 16 0b0101101010111100 = some (.clear 0xA#4 0xBC#8) ∧
  decodeTableWord 16 0b0110000000000000 = none

/-- R83: a value in an ignored field changes nothing of the request's run, in any cycle, but the latched field itself. -/
def Obligations.IgnoredFieldsChangeNoTrace : Prop :=
  ∀ (i i' : Instr) (s t : State) (D : Nat), SameButIgnored i i' → s.cfg.elaborates = true → exec i s = .next t →
    D = programDur s.cfg (requestProgram s.cfg i) → quietFor D t.host = true →
    ∃ t', exec i' s = .next t' ∧ ∀ j ≤ D, ∃ u, run j t = .next u ∧
      run j t' = .next { u with rowR := i'.row, argR := i'.arg }

/-- R153: the two row bases, and bit 7 always set. -/
def Obligations.SetcurByteTwoBases : Prop :=
  ∀ (row : Nibble) (col : Byte),
    (row = 0x0#4 → setcurByte row col = 0x80#8 ||| col) ∧
    (row ≠ 0x0#4 → setcurByte row col = 0x80#8 ||| 0x40#8 ||| col) ∧
    (setcurByte row col).getLsbD 7 = true

/-- R95, R97: the line a word disassembles to assembles to one word: the same word with its ignored fields zero. -/
def Obligations.DisassemblyAssembles : Prop :=
  ∀ w : ReqWord, ∃ v : ReqWord, assemble (disassemble w) = some [v] ∧
    (∀ e, decode w = .error e → v = w) ∧
    (∀ i, decode w = .ok i → ∃ i', decode v = .ok i' ∧ SameButIgnored i i' ∧ i'.canonical = true)

/-- R152: PRINTS is the DATA requests of the bytes before the first 0x00, in order; an absent text is none. -/
def Obligations.PrintsStopsAtFirstZero : Prop :=
  ∀ text rest : List Byte, (∀ b ∈ text, b ≠ 0x00#8) →
    printsRequests (some text) = text.map (Instr.data 0x0#4) ∧
    printsRequests (some (text ++ 0x00#8 :: rest)) = text.map (Instr.data 0x0#4) ∧
    printsRequests none = []

/-! ### Acceptance: what each request does at its edge (R123), for every state -/

/-- R130, R123, R112, R184: INIT is accepted in any state of the monitor; all lines go low. -/
def Obligations.InitAccepted : Prop :=
  ∀ (row : Nibble) (arg : Byte) (s : State), ∃ t, exec (.init row arg) s = .next t ∧
    Latched 0x1#4 row arg s t ∧ t.lines = ⟨0x0#4, false, false⟩ ∧ t.ph = .wait ∧ t.cnt = 1 ∧
    (s.mon.mphase = .uninit → t.mon = s.mon) ∧
    (s.mon.mphase ≠ .uninit → t.mon.mphase = .unknown ∧ t.mon.viol = { s.mon.viol with doubleInit := true })

/-- R150, R123, R114, R185: CMD presents the high nibble of its byte at the COMMAND level. -/
def Obligations.CmdAccepted : Prop :=
  ∀ (row : Nibble) (b : Byte) (s : State), ∃ t, exec (.cmd row b) s = .next t ∧
    Latched 0x2#4 row b s t ∧ NibbleEntered (b.extractLsb' 4 4) false t ∧ BeforeInitChecked s.mon t.mon

/-- R151, R123, R114, R185: DATA presents the high nibble of its byte at the DATA level. -/
def Obligations.DataAccepted : Prop :=
  ∀ (row : Nibble) (b : Byte) (s : State), ∃ t, exec (.data row b) s = .next t ∧
    Latched 0x3#4 row b s t ∧ NibbleEntered (b.extractLsb' 4 4) true t ∧ BeforeInitChecked s.mon t.mon

/-- R154, R123, R114, R185, R186: SETCUR presents the high nibble of its command byte, in range or not. -/
def Obligations.SetcurAccepted : Prop :=
  ∀ (row : Nibble) (col : Byte) (s : State), ∃ t, exec (.setcur row col) s = .next t ∧
    Latched 0x4#4 row col s t ∧
    NibbleEntered ((0x80#8 ||| (if row = 0x0#4 then 0x00#8 else 0x40#8) ||| col).extractLsb' 4 4) false t ∧
    (row.toNat < s.cfg.rows ∧ col.toNat < s.cfg.cols → BeforeInitChecked s.mon t.mon) ∧
    (s.cfg.rows ≤ row.toNat ∨ s.cfg.cols ≤ col.toNat →
      t.mon.viol.cursorRange = true ∧
      BeforeInitChecked s.mon
        { t.mon with viol := { t.mon.viol with cursorRange := s.mon.viol.cursorRange } })

/-- R155, R123, R114, R185: CLEAR presents the high nibble of clear-display, 0x0. -/
def Obligations.ClearAccepted : Prop :=
  ∀ (row : Nibble) (arg : Byte) (s : State), ∃ t, exec (.clear row arg) s = .next t ∧
    Latched 0x5#4 row arg s t ∧ NibbleEntered 0x0#4 false t ∧ BeforeInitChecked s.mon t.mon

/-! ### The step -/

/-- R22, R123: an idle block with a request on the port accepts the word of this cycle: the step is `exec` of the decoded
request at the state whose edge number has moved and whose host has had its request taken. -/
def Obligations.StepRunsDecodedInstruction : Prop :=
  ∀ (s : State) (i : Instr), s.EdgeWith false .idle → s.port.reqValid = true → decode s.port.reqWord = .ok i →
    step s = exec i { s with t := s.t + 1, host := hostAfterEdge true s.host }

/-- MODEL'S CHOICE: its own `withFetchWord` (notes/assumptions/2.md): the very next step accepts the word it presents. -/
def Obligations.PresentedWordRunsNext : Prop :=
  ∀ (s : State) (w : ReqWord) (i : Instr), s.cfg.elaborates = true → decode w = .ok i →
    step (s.withFetchWord 16 w.toNat) = exec i { s with fsm := .idle, t := s.t + 1 }

/-- R182: a reserved request is accepted and dropped: no register changes, `refused` is set, and `req_ready` is 1 again in
the next cycle (unless the host drives `rst` there, R21). -/
def Obligations.ReservedRequestDropped : Prop :=
  ∀ s u : State, s.EdgeWith false .idle → s.port.reqValid = true →
    (s.port.reqWord.extractLsb' 12 4 = 0x0#4 ∨ 0x6#4 ≤ s.port.reqWord.extractLsb' 12 4) →
    u = { s with t := s.t + 1, host := hostAfterEdge true s.host, refused := true } →
    step s = .next u ∧ (u.port.rst = false → u.reqReady = true)

/-- R124 (last sentence), R68: an idle edge with no request changes no register; the lines hold. -/
def Obligations.IdleEdgeHolds : Prop :=
  ∀ s : State, s.EdgeWith false .idle → s.port.reqValid = false →
    step s = .next { s with t := s.t + 1, host := hostAfterEdge false s.host }

/-- R124: inside a phase only `cnt` changes. -/
def Obligations.RunStepCountsDown : Prop :=
  ∀ (s : State) (P : Program), s.EdgeWith false .run → s.program = some P → 1 < s.cnt →
    step s = .next { s with cnt := s.cnt - 1, t := s.t + 1, host := hostAfterEdge false s.host }

/-- R124: at the end of SETUP, E rises for P_E_HIGH cycles. -/
def Obligations.RunStepRaisesE : Prop :=
  ∀ (s : State) (P : Program), s.EdgeWith false .run → s.program = some P → s.cnt ≤ 1 → s.ph = .setup →
    step s = .next { s with eR := true, ph := .high, cnt := s.cfg.eHigh, t := s.t + 1,
                            host := hostAfterEdge false s.host }

/-- R124, R116, R183: at the end of HIGH, E falls, the lines' levels are sampled at this edge, and the monitor follows the
samples of INIT. -/
def Obligations.RunStepDropsEAndSamples : Prop :=
  ∀ (s : State) (P : Program), s.EdgeWith false .run → s.program = some P → s.cnt ≤ 1 → s.ph = .high →
    ∀ m : MPhase, m =
      (if s.opR = 0x1#4 ∧ s.mon.mphase ≠ .unknown then
        (if s.ap = 6#5 then .pending4 else if s.ap = 11#5 then .configuredOff
         else if s.ap = 14#5 then .ready else if s.ap = 17#5 then .readyEntry else s.mon.mphase)
       else s.mon.mphase) →
    step s = .next { s with eR := false, ph := .tail, cnt := s.cfg.eLow, t := s.t + 1,
                            host := hostAfterEdge false s.host,
                            samples := s.samples ++ [⟨s.t + 1, s.rsR, s.dbR⟩], mon := ⟨m, s.mon.viol⟩ }

/-- R124, R113, R114: at the end of an action that is not the last, the next action is entered. It is a WAIT or a NIBBLE:
DRIVE_LOW is only action 0 of INIT (R112). -/
def Obligations.RunStepEntersNextAction : Prop :=
  ∀ (s : State) (P : Program) (a : Action), s.EdgeWith false .run → s.program = some P → s.cnt ≤ 1 →
    (s.ph = .tail ∨ s.ph = .wait) → P[s.ap.toNat + 1]? = some a →
    a ≠ .driveLow ∧ (s.ap + 1#5).toNat = s.ap.toNat + 1 ∧
    (∀ n, a = .wait n → step s = .next
      { s with ap := s.ap + 1#5, ph := .wait, cnt := n, t := s.t + 1, host := hostAfterEdge false s.host }) ∧
    (∀ v m, a = .nibble v m → step s = .next
      { s with ap := s.ap + 1#5, dbR := v, rsR := m, eR := false, ph := .setup, cnt := s.cfg.eLow, t := s.t + 1,
               host := hostAfterEdge false s.host })

/-- R124, R125: at the end of the last action the request is complete, and the lines keep their levels. -/
def Obligations.RunStepCompletes : Prop :=
  ∀ (s : State) (P : Program), s.EdgeWith false .run → s.program = some P → s.cnt ≤ 1 →
    (s.ph = .tail ∨ s.ph = .wait) → P.length ≤ s.ap.toNat + 1 →
    step s = .next { s with fsm := .idle, t := s.t + 1, host := hostAfterEdge false s.host }

/-- R200, R36, R201, R187: an edge with `rst == 1` overrides everything: every register takes its reset value; a request
being carried out is aborted; a high E that falls is a sample of two free values. Holds for every value of them.
MODEL'S CHOICE: the form of the free values (notes/assumptions/4.md), and that E high with `fsm` IDLE, which no run
reaches, is the same (notes/assumptions/13.md). -/
def Obligations.ResetEdgeResets : Prop :=
  ∀ (s : State) (f : Fsm), s.EdgeWith true f → ∃ u, step s = .next u ∧
    u.fsm = .idle ∧ u.opR = 0x0#4 ∧ u.rowR = 0x0#4 ∧ u.argR = 0x00#8 ∧ u.ap = 0#5 ∧ u.ph = .wait ∧ u.cnt = 0 ∧
    u.dbR = 0x0#4 ∧ u.rsR = false ∧ u.eR = false ∧
    u.cfg = s.cfg ∧ u.t = s.t + 1 ∧ u.refused = s.refused ∧ u.host = hostAfterEdge false s.host ∧
    (f = .idle → u.mon = s.mon) ∧
    (f = .run → u.mon.mphase = .unknown ∧ u.mon.viol = { s.mon.viol with aborted := true }) ∧
    (s.eR = false → u.samples = s.samples ∧ u.freeCtr = s.freeCtr) ∧
    (s.eR = true → u.samples = s.samples ++ [⟨s.t + 1, Config.freeRs s.freeCtr, Config.freeNib s.freeCtr⟩] ∧
      u.freeCtr = s.freeCtr + 1)

/-- R189: a controller power cycle touches the monitor only. MODEL'S CHOICE: the event is a step of its own between two
edges (notes/assumptions/11.md). -/
def Obligations.PowerCycleMovesMonitorOnly : Prop :=
  ∀ (s : State) (r : List HostAct), s.cfg.elaborates = true → s.host = .powerCycle :: r →
    (s.fsm = .idle → step s = .next { s with host := r, mon := { s.mon with mphase := .uninit } }) ∧
    (s.fsm = .run → step s = .next
      { s with host := r, mon := ⟨.unknown, { s.mon.viol with aborted := true }⟩ })

/-- R143: the model asked for another initialization sequence sets `refused` and does nothing else.
MODEL'S CHOICE: the asking is an event of the host (notes/assumptions/7.md). -/
def Obligations.OtherInitSequenceRefused : Prop :=
  ∀ (s : State) (r : List HostAct), s.cfg.elaborates = true → s.host = .otherInit :: r →
    step s = .next { s with host := r, refused := true }

/-- R113, R27, U9: an elaboration with a zero wait or with a parameter that `cnt` cannot hold is refused.
MODEL'S CHOICE: the refusal is the answer of the step (notes/assumptions/6.md). -/
def Obligations.IllegalElaborationRefused : Prop :=
  ∀ s : State,
    (∃ n ∈ [s.cfg.eLow, s.cfg.eHigh, s.cfg.tPowerOn, s.cfg.tResetGap1, s.cfg.tResetGap2, s.cfg.tResetGap3,
        s.cfg.tWidthSettle, s.cfg.tInitSettle, s.cfg.tByteGap], n = 0 ∨ 2 ^ s.cfg.cntW - 1 < n) →
    step s = .refused .illegalElaboration

/-- R21: `req_ready` is `(fsm == IDLE) and (rst == 0)`, `busy` its negation, and neither looks at the request. -/
def Obligations.ReadyIsIdleWithoutReset : Prop :=
  ∀ s : State, (s.reqReady = true ↔ s.fsm = .idle ∧ s.port.rst = false) ∧ s.busy = !s.reqReady ∧
    ∀ (p : Port) (n : Nat) (r : List HostAct), p.rst = s.port.rst →
      ({ s with host := .drive p n :: r } : State).reqReady = s.reqReady

/-- R22, R74: while a request runs, whatever is on `req_valid` and `req_word` changes nothing. -/
def Obligations.RunIgnoresRequestPort : Prop :=
  ∀ (s u : State) (h : List HostAct), s.EdgeWith false .run → eventNext h = false → (portOf h).rst = false →
    step s = .next u → step { s with host := h } = .next { u with host := hostAfterEdge false h }

/-! ### Invariants and whole-machine rules -/

/-- R36: every register and every ghost item right after the first reset, for any elaboration and any host.
MODEL'S CHOICE: `freeCtr` starts at 0 (notes/assumptions/4.md). -/
def Obligations.ResetStateValues : Prop :=
  ∀ (cfg : Config) (h : List HostAct),
    State.first cfg h =
      { cfg := cfg, fsm := .idle, opR := 0x0#4, rowR := 0x0#4, argR := 0x00#8, ap := 0#5, ph := .wait, cnt := 0,
        dbR := 0x0#4, rsR := false, eR := false, samples := [], t := 0, mon := ⟨.uninit, ⟨false, false, false, false⟩⟩,
        refused := false, freeCtr := 0, host := h } ∧
    (State.first cfg h).Coherent ∧ (State.first cfg h).LogOrdered ∧ (State.first cfg h).Safe

/-- R24, R26, R115, R117, R125: in every cycle the registers are at a moment of the action that `ap` names, or idle with E
low. Every step keeps that. -/
def Obligations.CoherentKept : Prop :=
  ∀ s u : State, s.Coherent → step s = .next u → u.Coherent

/-- R27: `cnt` never exceeds the largest parameter, fits its register, and is at least 1 while a request runs. -/
def Obligations.CounterInRange : Prop :=
  ∀ s u : State, s.Coherent → s.cnt ≤ s.cfg.largest → step s = .next u →
    u.cnt ≤ u.cfg.largest ∧ u.cnt ≤ 2 ^ u.cfg.cntW - 1 ∧ (u.fsm = .run → 1 ≤ u.cnt)

/-- R26: while a request runs, `ap` is an index of its program, at most 18. -/
def Obligations.ApInsideProgram : Prop :=
  ∀ s u : State, s.Coherent → step s = .next u → u.fsm = .run →
    ∃ P, u.program = some P ∧ u.ap.toNat < P.length ∧ u.ap.toNat ≤ 18

/-- R26, R113, R125: every program of a legal elaboration has 1 to 19 actions, waits that `cnt` can time, and a WAIT at
its end. -/
def Obligations.ProgramsWellFormed : Prop :=
  ∀ (cfg : Config) (i : Instr), cfg.elaborates = true → Program.wellFormed cfg (requestProgram cfg i) = true

/-- R180, R66: a legal elaboration never faults and never refuses, whatever the host does. -/
def Obligations.NeverStops : Prop :=
  ∀ s : State, s.cfg.elaborates = true → s.Coherent → ∃ u, step s = .next u

/-- R31, R32: the stamps of the sample log rise strictly and none lies in the future. -/
def Obligations.LogOrderedKept : Prop :=
  ∀ s u : State, s.LogOrdered → step s = .next u → u.LogOrdered

/-- R188, R31, R6: no step takes an entry out of `V`, clears `refused`, shortens the sample log or changes a parameter. -/
def Obligations.MarksNeverCleared : Prop :=
  ∀ s u : State, step s = .next u →
    (∀ v : Violation, s.mon.viol.has v = true → u.mon.viol.has v = true) ∧
    (s.refused = true → u.refused = true) ∧ (∃ X, u.samples = s.samples ++ X) ∧ u.cfg = s.cfg

/-- R31, R116: the log grows at exactly the steps where E goes from 1 to 0, by one sample stamped with that edge. -/
def Obligations.SampleExactlyWhenEFalls : Prop :=
  ∀ s u : State, s.Coherent → step s = .next u →
    ((s.eR = true ∧ u.eR = false) → ∃ x, u.samples = s.samples ++ [x] ∧ x.t = u.t ∧
      (s.port.rst = false → x.rs = s.rsR ∧ x.nib = s.dbR)) ∧
    (¬(s.eR = true ∧ u.eR = false) → u.samples = s.samples)

/-- R117, R212: RS and DB do not move across an edge at which E rises, stays high or falls, but for a reset. -/
def Obligations.LinesStableAroundPulse : Prop :=
  ∀ s u : State, s.Coherent → s.port.rst = false → step s = .next u → (s.eR = true ∨ u.eR = true) →
    u.dbR = s.dbR ∧ u.rsR = s.rsR

/-- R183 to R189: the only steps that move the monitor's phase, and where each goes. -/
def Obligations.PhaseMovesOnlyByItsRules : Prop :=
  ∀ s u : State, step s = .next u → u.mon.mphase ≠ s.mon.mphase →
    (s.fsm = .run ∧ s.opR = 0x1#4 ∧ s.ph = .high ∧ s.mon.mphase ≠ .unknown ∧
      ((s.ap = 6#5 ∧ u.mon.mphase = .pending4) ∨ (s.ap = 11#5 ∧ u.mon.mphase = .configuredOff) ∨
       (s.ap = 14#5 ∧ u.mon.mphase = .ready) ∨ (s.ap = 17#5 ∧ u.mon.mphase = .readyEntry))) ∨
    (s.fsm = .idle ∧ s.port.reqValid = true ∧ s.port.reqWord.extractLsb' 12 4 = 0x1#4 ∧ s.mon.mphase ≠ .uninit ∧
      u.mon.mphase = .unknown ∧ u.mon.viol.doubleInit = true) ∨
    (s.fsm = .run ∧ s.port.rst = true ∧ u.mon.mphase = .unknown ∧ u.mon.viol.aborted = true) ∨
    (∃ r, s.host = .powerCycle :: r ∧
      ((s.fsm = .idle ∧ u.mon.mphase = .uninit) ∨
       (s.fsm = .run ∧ u.mon.mphase = .unknown ∧ u.mon.viol.aborted = true)))

/-- R184, R187, R189: an unknown phase ends only by a power cycle with the block idle. -/
def Obligations.UnknownUntilPowerCycle : Prop :=
  ∀ s u : State, step s = .next u → s.mon.mphase = .unknown → u.mon.mphase ≠ .unknown →
    (∃ r, s.host = .powerCycle :: r) ∧ s.fsm = .idle ∧ u.mon.mphase = .uninit

/-! ### Whole requests, with a host that holds `rst = 0` -/

/-- R127, R125, R66: a request accepted at edge k is busy in every cycle before k + D(P) and complete in that one, with E
low; it records no further violation. -/
def Obligations.RequestCompletesOnTime : Prop :=
  ∀ (i : Instr) (s t : State) (D : Nat), s.cfg.elaborates = true → exec i s = .next t →
    D = programDur s.cfg (requestProgram s.cfg i) → quietFor D t.host = true →
    1 ≤ D ∧ (∀ j < D, ∃ u, run j t = .next u ∧ u.fsm = .run ∧ u.busy = true) ∧
    ∃ u, run D t = .next u ∧ RequestFrame t u ∧ u.t = t.t + D ∧ u.host = hostAfterEdges D t.host

/-- R128: the samples of a request are those of its NIBBLE actions, in order, with their stamps. -/
def Obligations.RequestMakesItsSamples : Prop :=
  ∀ (i : Instr) (s t : State) (D : Nat), s.cfg.elaborates = true → exec i s = .next t →
    D = programDur s.cfg (requestProgram s.cfg i) → quietFor D t.host = true →
    ∃ u, run D t = .next u ∧ u.samples = t.samples ++ programSamples s.cfg t.t (requestProgram s.cfg i)

/-- R112 to R115, R68: in every cycle of a request the lines carry the levels of its program, and they hold after it. -/
def Obligations.RequestLinesFollowProgram : Prop :=
  ∀ (i : Instr) (s t : State) (D : Nat), s.cfg.elaborates = true → exec i s = .next t →
    D = programDur s.cfg (requestProgram s.cfg i) → quietFor D t.host = true →
    ∀ j ≤ D, ∃ u, run j t = .next u ∧ u.lines = programLines s.cfg s.lines (requestProgram s.cfg i) j

/-- R67, R141: what the lines and the samples do, counted from acceptance, depends on the request and the parameters
alone: not on earlier requests, on the levels left on the lines, or on the monitor. -/
def Obligations.TraceDependsOnRequestOnly : Prop :=
  ∀ (i : Instr) (s s' t t' : State) (D : Nat), s.cfg.elaborates = true → s'.cfg = s.cfg →
    exec i s = .next t → exec i s' = .next t' → D = programDur s.cfg (requestProgram s.cfg i) →
    quietFor D t.host = true → quietFor D t'.host = true →
    (∀ j ≤ D, ∃ u u', run j t = .next u ∧ run j t' = .next u' ∧ u.lines = u'.lines ∧ u.fsm = u'.fsm) ∧
    ∃ (u u' : State) (X : List Sample), run D t = .next u ∧ run D t' = .next u' ∧
      u.samples = t.samples ++ X.map (Sample.shift t.t) ∧ u'.samples = t'.samples ++ X.map (Sample.shift t'.t)

/-- R210, R139: the duration of each request. -/
def Obligations.RequestDurations : Prop :=
  ∀ (cfg : Config) (row : Nibble) (arg : Byte),
    programDur cfg (requestProgram cfg (.init row arg)) =
      1 + cfg.tPowerOn + cfg.tResetGap1 + cfg.tResetGap2 + cfg.tResetGap3 + cfg.tWidthSettle + 3 * cfg.tInitSettle
        + 10 * (2 * cfg.eLow + cfg.eHigh) ∧
    programDur cfg (requestProgram cfg (.cmd row arg)) = 2 * (2 * cfg.eLow + cfg.eHigh) + cfg.tByteGap ∧
    programDur cfg (requestProgram cfg (.data row arg)) = 2 * (2 * cfg.eLow + cfg.eHigh) + cfg.tByteGap ∧
    programDur cfg (requestProgram cfg (.setcur row arg)) = 2 * (2 * cfg.eLow + cfg.eHigh) + cfg.tByteGap ∧
    programDur cfg (requestProgram cfg (.clear row arg)) =
      2 * (2 * (2 * cfg.eLow + cfg.eHigh) + cfg.tByteGap) ∧
    programDur Config.reference (requestProgram Config.reference (.init row arg)) = 146031 ∧
    programDur Config.reference (requestProgram Config.reference (.cmd row arg)) = 2006 ∧
    programDur Config.reference (requestProgram Config.reference (.clear row arg)) = 4012

/-- R130 to R139, R183: INIT from acceptance to completion: the lines low through the power-on wait, the ten samples at
their edges, all at RS = 0, and the monitor at READY_ENTRY if the controller was in its power-on state. -/
def Obligations.InitRunsToReady : Prop :=
  ∀ (row : Nibble) (arg : Byte) (s t : State) (c : Config) (N D k : Nat), c = s.cfg → c.elaborates = true →
    exec (.init row arg) s = .next t → N = 2 * c.eLow + c.eHigh → k = t.t + 1 + c.tPowerOn + c.eLow + c.eHigh →
    D = 1 + c.tPowerOn + c.tResetGap1 + c.tResetGap2 + c.tResetGap3 + c.tWidthSettle + 3 * c.tInitSettle + 10 * N →
    quietFor D t.host = true →
    (∀ j ≤ c.tPowerOn, ∃ u, run j t = .next u ∧ u.fsm = .run ∧ u.lines = ⟨0x0#4, false, false⟩) ∧
    (∀ j ≤ D, ∃ u, run j t = .next u ∧ u.rsR = false) ∧
    ∃ u, run D t = .next u ∧ RequestFrame t u ∧ u.t = t.t + D ∧
      u.lines = ⟨c.entry.extractLsb' 0 4, false, false⟩ ∧
      u.samples = t.samples ++
        [⟨k, false, c.resetNibble⟩,
         ⟨k + (N + c.tResetGap1), false, c.resetNibble⟩,
         ⟨k + (2 * N + c.tResetGap1 + c.tResetGap2), false, c.resetNibble⟩,
         ⟨k + (3 * N + c.tResetGap1 + c.tResetGap2 + c.tResetGap3), false, c.widthNibble⟩,
         ⟨k + (4 * N + c.tResetGap1 + c.tResetGap2 + c.tResetGap3 + c.tWidthSettle), false,
           c.funcSet.extractLsb' 4 4⟩,
         ⟨k + (5 * N + c.tResetGap1 + c.tResetGap2 + c.tResetGap3 + c.tWidthSettle), false,
           c.funcSet.extractLsb' 0 4⟩,
         ⟨k + (6 * N + c.tResetGap1 + c.tResetGap2 + c.tResetGap3 + c.tWidthSettle + c.tInitSettle), false,
           c.dispCtl.extractLsb' 4 4⟩,
         ⟨k + (7 * N + c.tResetGap1 + c.tResetGap2 + c.tResetGap3 + c.tWidthSettle + c.tInitSettle), false,
           c.dispCtl.extractLsb' 0 4⟩,
         ⟨k + (8 * N + c.tResetGap1 + c.tResetGap2 + c.tResetGap3 + c.tWidthSettle + 2 * c.tInitSettle), false,
           c.entry.extractLsb' 4 4⟩,
         ⟨k + (9 * N + c.tResetGap1 + c.tResetGap2 + c.tResetGap3 + c.tWidthSettle + 2 * c.tInitSettle), false,
           c.entry.extractLsb' 0 4⟩] ∧
      (s.mon.mphase = .uninit → u.mon = ⟨.readyEntry, s.mon.viol⟩) ∧
      (s.mon.mphase ≠ .uninit → u.mon.mphase = .unknown)

/-- R150, R121, R94: CMD sends its byte unchanged: high nibble, then low, 2L + H edges apart, RS low in every cycle. -/
def Obligations.CmdSendsItsByte : Prop :=
  ∀ (row : Nibble) (b : Byte) (s t : State) (c : Config) (N D : Nat), c = s.cfg → c.elaborates = true →
    exec (.cmd row b) s = .next t → N = 2 * c.eLow + c.eHigh → D = 2 * N + c.tByteGap → quietFor D t.host = true →
    (∀ j ≤ D, ∃ u, run j t = .next u ∧ u.rsR = false) ∧
    ∃ u, run D t = .next u ∧ RequestFrame t u ∧ u.t = t.t + D ∧ u.mon = t.mon ∧
      u.lines = ⟨b.extractLsb' 0 4, false, false⟩ ∧
      u.samples = t.samples ++ [⟨t.t + c.eLow + c.eHigh, false, b.extractLsb' 4 4⟩,
        ⟨t.t + c.eLow + c.eHigh + N, false, b.extractLsb' 0 4⟩]

/-- R151, R121: DATA sends its byte the same way with RS high in every cycle; 0x00 is no terminator. -/
def Obligations.DataSendsItsByte : Prop :=
  ∀ (row : Nibble) (b : Byte) (s t : State) (c : Config) (N D : Nat), c = s.cfg → c.elaborates = true →
    exec (.data row b) s = .next t → N = 2 * c.eLow + c.eHigh → D = 2 * N + c.tByteGap → quietFor D t.host = true →
    (∀ j ≤ D, ∃ u, run j t = .next u ∧ u.rsR = true) ∧
    ∃ u, run D t = .next u ∧ RequestFrame t u ∧ u.t = t.t + D ∧ u.mon = t.mon ∧
      u.lines = ⟨b.extractLsb' 0 4, true, false⟩ ∧
      u.samples = t.samples ++ [⟨t.t + c.eLow + c.eHigh, true, b.extractLsb' 4 4⟩,
        ⟨t.t + c.eLow + c.eHigh + N, true, b.extractLsb' 0 4⟩]

/-- R154, R153: SETCUR sends 0x80 | base(row) | col, in range or not, RS low in every cycle. -/
def Obligations.SetcurSendsItsByte : Prop :=
  ∀ (row : Nibble) (col b : Byte) (s t : State) (c : Config) (N D : Nat), c = s.cfg → c.elaborates = true →
    exec (.setcur row col) s = .next t → b = 0x80#8 ||| (if row = 0x0#4 then 0x00#8 else 0x40#8) ||| col →
    N = 2 * c.eLow + c.eHigh → D = 2 * N + c.tByteGap → quietFor D t.host = true →
    (∀ j ≤ D, ∃ u, run j t = .next u ∧ u.rsR = false) ∧
    ∃ u, run D t = .next u ∧ RequestFrame t u ∧ u.t = t.t + D ∧ u.mon = t.mon ∧
      u.lines = ⟨b.extractLsb' 0 4, false, false⟩ ∧
      u.samples = t.samples ++ [⟨t.t + c.eLow + c.eHigh, false, b.extractLsb' 4 4⟩,
        ⟨t.t + c.eLow + c.eHigh + N, false, b.extractLsb' 0 4⟩]

/-- R155, R89: CLEAR sends 0x01, waits, and sends 0x02: four samples, RS low in every cycle. -/
def Obligations.ClearSendsClearThenHome : Prop :=
  ∀ (row : Nibble) (arg : Byte) (s t : State) (c : Config) (N D k : Nat), c = s.cfg → c.elaborates = true →
    exec (.clear row arg) s = .next t → N = 2 * c.eLow + c.eHigh → D = 2 * (2 * N + c.tByteGap) →
    k = t.t + c.eLow + c.eHigh → quietFor D t.host = true →
    (∀ j ≤ D, ∃ u, run j t = .next u ∧ u.rsR = false) ∧
    ∃ u, run D t = .next u ∧ RequestFrame t u ∧ u.t = t.t + D ∧ u.mon = t.mon ∧
      u.lines = ⟨0x2#4, false, false⟩ ∧
      u.samples = t.samples ++ [⟨k, false, 0x0#4⟩, ⟨k + N, false, 0x1#4⟩,
        ⟨k + (2 * N + c.tByteGap), false, 0x0#4⟩, ⟨k + (3 * N + c.tByteGap), false, 0x2#4⟩]

/-- R70, R127, R211, R213: requests presented one after another are carried out in that order, D(P) + 1 edges apart, the
log is the concatenation of their samples, and the run ends. -/
def Obligations.RequestsCarriedOutInOrder : Prop :=
  ∀ (is : List Instr) (s : State), s.cfg.elaborates = true → s.fsm = .idle →
    s.host = hostOffering (is.map encode) →
    ∃ u, run (sequenceDur s.cfg is) s = .next u ∧ u.EndOfRun ∧ u.host = [] ∧
      u.t = s.t + sequenceDur s.cfg is ∧ u.samples = s.samples ++ sequenceSamples s.cfg s.t is

/-- R185, R186, R188: with the controller at READY_ENTRY, a display request in range keeps the contract: it records nothing
and completes with the phase still READY_ENTRY. -/
def Obligations.DisplayRequestsKeepContract : Prop :=
  ∀ (i : Instr) (s t : State) (D : Nat), s.cfg.elaborates = true → s.mon.mphase = .readyEntry → s.Safe →
    i.op ≠ 0x1#4 → (i.op = 0x4#4 → i.row.toNat < s.cfg.rows ∧ i.arg.toNat < s.cfg.cols) →
    exec i s = .next t → D = programDur s.cfg (requestProgram s.cfg i) → quietFor D t.host = true →
    ∃ u, run D t = .next u ∧ u.Safe ∧ u.mon.mphase = .readyEntry

/-! ### Runs of the block, from the first reset edge to the first end (R213) -/

/-- R213: a run is the sequence of steps from the state after the first reset edge to its FIRST end; there is such a run
wherever the steps reach an end, and only one. DEDUCED: the events of a cycle come before its end is looked at
(notes/assumptions/15.md). -/
def Obligations.RunStopsAtItsFirstEnd : Prop :=
  ∀ (cfg : Config) (h : List HostAct),
    (∀ ss, IsRun cfg h ss → ∃ n, ss.length = n + 1 ∧ ∀ j ≤ n, ∃ v, ss[j]? = some v ∧
      run j (State.first cfg h) = .next v ∧ (v.EndOfRun ↔ j = n)) ∧
    (∀ n u, run n (State.first cfg h) = .next u → u.EndOfRun → ∃ ss, IsRun cfg h ss ∧ ss.length ≤ n + 1) ∧
    (∀ ss us, IsRun cfg h ss → IsRun cfg h us → ss = us)

/-- R213: the observation at the end of a run holds the levels in every cycle, from cycle 0 to the last, each once, and
the sample log, the phase, `V` and `refused` of the last. DEDUCED: the states between the events of one cycle are that
cycle's (notes/assumptions/15.md). -/
def Obligations.RunObservesEveryCycle : Prop :=
  ∀ (cfg : Config) (h : List HostAct) (ss : List State), IsRun cfg h ss →
    ∃ o u, observeRun ss = some o ∧ ss.getLast? = some u ∧
      o.levels.length = u.t + 1 ∧ (∀ v ∈ ss, o.levels[v.t]? = some v.lines) ∧
      o.samples = u.samples ∧ o.mphase = u.mon.mphase ∧ o.viol = u.mon.viol ∧ o.refused = u.refused

/-- R213, R70, R128, R204: a list of requests presented from the first reset on has a run. Observed at its end are, in
every cycle, the levels of the requests' traces in order with one idle cycle before each, and the requests' samples; and
where the first request is the only INIT and every cursor is in range, the run is safe and the controller ready. -/
def Obligations.RunOfRequestsObserved : Prop :=
  ∀ (cfg : Config) (is : List Instr), cfg.elaborates = true →
    ∃ ss o, IsRun cfg (hostOffering (is.map encode)) ss ∧ observeRun ss = some o ∧
      o.levels = sequenceLevels cfg Lines.low is ∧ o.samples = sequenceSamples cfg 0 is ∧ o.refused = false ∧
      (∀ row arg js, is = .init row arg :: js →
        (∀ j ∈ js, j.op ≠ 0x1#4 ∧ (j.op = 0x4#4 → j.row.toNat < cfg.rows ∧ j.arg.toNat < cfg.cols)) →
        o.viol = Violations.none ∧ o.mphase = .readyEntry)

/-- R183 to R189, R213: a safe run leaves the controller in its power-on state or ready, never in between and never
unknown, whatever the host did. -/
def Obligations.SafeRunEndsInKnownPhase : Prop :=
  ClaimOfRuns fun _ _ o => o.mphase = .uninit ∨ o.mphase = .readyEntry
end

