-- ==== Sys2Proof/Laws/Monitor.lean ====
section
/-! SUPPORT. The contract monitor's operations, one lemma per case (spec/60_exceptions.md R183 to R189). -/

namespace Sys2Proof.Machine

/-- `V` only grows (R188). -/
theorem Violations.has_add {V : Violations} {v : Violation} (w : Violation) (h : V.has v = true) :
    (V.add w).has v = true := by
  cases v <;> cases w <;> simp_all [Violations.has, Violations.add]

@[simp] theorem Monitor.violate_mphase (m : Monitor) (v : Violation) : (m.violate v).mphase = m.mphase := rfl
@[simp] theorem Monitor.violate_viol (m : Monitor) (v : Violation) : (m.violate v).viol = m.viol.add v := rfl

theorem Monitor.acceptInit_uninit {m : Monitor} (h : m.mphase = .uninit) : m.acceptInit = m := by
  simp [Monitor.acceptInit, h]

theorem Monitor.acceptInit_again {m : Monitor} (h : m.mphase ≠ .uninit) :
    m.acceptInit = ⟨.unknown, m.viol.add .doubleInit⟩ := by
  simp [Monitor.acceptInit, h]

theorem Monitor.acceptDisplay_ready {m : Monitor} (h : m.mphase = .readyEntry) : m.acceptDisplay = m := by
  simp [Monitor.acceptDisplay, h]

theorem Monitor.acceptDisplay_early {m : Monitor} (h : m.mphase ≠ .readyEntry) :
    m.acceptDisplay = m.violate .beforeInit := by
  simp [Monitor.acceptDisplay, h]

/-- A display request never moves the phase (R185). -/
@[simp] theorem Monitor.acceptDisplay_mphase (m : Monitor) : m.acceptDisplay.mphase = m.mphase := by
  unfold Monitor.acceptDisplay; split <;> rfl

theorem cursorOutOfRange_iff {cfg : Config} {row : Nibble} {arg : Byte} :
    cursorOutOfRange cfg row arg = true ↔ cfg.rows ≤ row.toNat ∨ cfg.cols ≤ arg.toNat := by
  simp [cursorOutOfRange]

theorem Monitor.acceptSetcur_in {cfg : Config} {row : Nibble} {arg : Byte} {m : Monitor}
    (h : cursorOutOfRange cfg row arg = false) : m.acceptSetcur cfg row arg = m.acceptDisplay := by
  simp [Monitor.acceptSetcur, h]

theorem Monitor.acceptSetcur_out {cfg : Config} {row : Nibble} {arg : Byte} {m : Monitor}
    (h : cursorOutOfRange cfg row arg = true) :
    m.acceptSetcur cfg row arg = m.acceptDisplay.violate .cursorRange := by
  simp [Monitor.acceptSetcur, h]

@[simp] theorem Monitor.acceptSetcur_mphase (cfg : Config) (row : Nibble) (arg : Byte) (m : Monitor) :
    (m.acceptSetcur cfg row arg).mphase = m.mphase := by
  unfold Monitor.acceptSetcur; split <;> simp

/-- The action indices of R183 as values of the 5-bit register `ap`. -/
theorem ap_toNat_eq (a : BitVec 5) :
    (a.toNat = 6 ↔ a = 6#5) ∧ (a.toNat = 11 ↔ a = 11#5) ∧ (a.toNat = 14 ↔ a = 14#5) ∧ (a.toNat = 17 ↔ a = 17#5) := by
  revert a; decide

/-- What a sample does to the monitor (R183): nothing outside INIT or in an unknown phase; else the phase of its action,
which is one of four or no change. -/
theorem Monitor.sample_cases (op : Nibble) (ap : BitVec 5) (m : Monitor) :
    ((op = opInit ∧ m.mphase ≠ .unknown) ∧
      ((ap = 6#5 ∧ m.sample op ap = ⟨.pending4, m.viol⟩) ∨ (ap = 11#5 ∧ m.sample op ap = ⟨.configuredOff, m.viol⟩) ∨
       (ap = 14#5 ∧ m.sample op ap = ⟨.ready, m.viol⟩) ∨ (ap = 17#5 ∧ m.sample op ap = ⟨.readyEntry, m.viol⟩))) ∨
    (m.sample op ap = m) := by
  obtain ⟨h6, h11, h14, h17⟩ := ap_toNat_eq ap
  by_cases h : op = opInit ∧ m.mphase ≠ .unknown
  · simp only [Monitor.sample, if_pos h, initPhaseAt, h6, h11, h14, h17]
    by_cases a1 : ap = 6#5
    · simp [a1, h]
    by_cases a2 : ap = 11#5
    · simp [a2, h]
    by_cases a3 : ap = 14#5
    · simp [a3, h]
    by_cases a4 : ap = 17#5
    · simp [a4, h]
    exact .inr (by simp [a1, a2, a3, a4])
  · exact .inr (by simp [Monitor.sample, h])

/-- A sample never records a violation. -/
@[simp] theorem Monitor.sample_viol (op : Nibble) (ap : BitVec 5) (m : Monitor) : (m.sample op ap).viol = m.viol := by
  unfold Monitor.sample; split <;> rfl

/-- Outside INIT a sample does nothing to the monitor. -/
theorem Monitor.sample_display {op : Nibble} (h : op ≠ opInit) (ap : BitVec 5) (m : Monitor) : m.sample op ap = m := by
  simp [Monitor.sample, h]

/-- In an unknown phase a sample does nothing to the monitor. -/
theorem Monitor.sample_unknown (op : Nibble) (ap : BitVec 5) {m : Monitor} (h : m.mphase = .unknown) :
    m.sample op ap = m := by
  simp [Monitor.sample, h]

@[simp] theorem Monitor.reset_idle (m : Monitor) : m.reset .idle = m := rfl
@[simp] theorem Monitor.reset_run (m : Monitor) : m.reset .run = ⟨.unknown, m.viol.add .aborted⟩ := rfl
@[simp] theorem Monitor.powerCycle_idle (m : Monitor) : m.powerCycle .idle = ⟨.uninit, m.viol⟩ := rfl
@[simp] theorem Monitor.powerCycle_run (m : Monitor) : m.powerCycle .run = ⟨.unknown, m.viol.add .aborted⟩ := rfl

/-- The monitor after the acceptance of a request (R183). -/
def monAfterAccept (cfg : Config) (m : Monitor) : Instr → Monitor
  | .init _ _   => m.acceptInit
  | .cmd _ _    => m.acceptDisplay
  | .data _ _   => m.acceptDisplay
  | .setcur r a => m.acceptSetcur cfg r a
  | .clear _ _  => m.acceptDisplay

/-- An acceptance takes nothing out of `V` (R188). -/
theorem monAfterAccept_has (cfg : Config) {m : Monitor} (i : Instr) {v : Violation} (h : m.viol.has v = true) :
    (monAfterAccept cfg m i).viol.has v = true := by
  have disp : m.acceptDisplay.viol.has v = true := by
    by_cases hr : m.mphase = .readyEntry
    · rwa [Monitor.acceptDisplay_ready hr]
    · rw [Monitor.acceptDisplay_early hr]; exact Violations.has_add _ h
  cases i with
  | init r a =>
    by_cases hu : m.mphase = .uninit
    · simpa [monAfterAccept, Monitor.acceptInit_uninit hu] using h
    · simpa [monAfterAccept, Monitor.acceptInit_again hu] using Violations.has_add _ h
  | cmd r a => exact disp
  | data r a => exact disp
  | setcur r a =>
    cases ho : cursorOutOfRange cfg r a with
    | false => simpa [monAfterAccept, Monitor.acceptSetcur_in ho] using disp
    | true => simpa [monAfterAccept, Monitor.acceptSetcur_out ho] using Violations.has_add _ disp
  | clear r a => exact disp

end Sys2Proof.Machine
end

