-- ==== Sys2Proof/Laws/State.lean ====
section
/-! SUPPORT. One lemma per field per update of State, so that no later proof unfolds a record update; and the derived
reads (lines, port, program) across the updates that leave them. -/

namespace Sys2Proof.Machine

section tick
variable (s : State) (a : Bool)
@[simp] theorem State.tick_cfg : (s.tick a).cfg = s.cfg := rfl
@[simp] theorem State.tick_fsm : (s.tick a).fsm = s.fsm := rfl
@[simp] theorem State.tick_opR : (s.tick a).opR = s.opR := rfl
@[simp] theorem State.tick_rowR : (s.tick a).rowR = s.rowR := rfl
@[simp] theorem State.tick_argR : (s.tick a).argR = s.argR := rfl
@[simp] theorem State.tick_ap : (s.tick a).ap = s.ap := rfl
@[simp] theorem State.tick_ph : (s.tick a).ph = s.ph := rfl
@[simp] theorem State.tick_cnt : (s.tick a).cnt = s.cnt := rfl
@[simp] theorem State.tick_dbR : (s.tick a).dbR = s.dbR := rfl
@[simp] theorem State.tick_rsR : (s.tick a).rsR = s.rsR := rfl
@[simp] theorem State.tick_eR : (s.tick a).eR = s.eR := rfl
@[simp] theorem State.tick_samples : (s.tick a).samples = s.samples := rfl
@[simp] theorem State.tick_t : (s.tick a).t = s.t + 1 := rfl
@[simp] theorem State.tick_mon : (s.tick a).mon = s.mon := rfl
@[simp] theorem State.tick_refused : (s.tick a).refused = s.refused := rfl
@[simp] theorem State.tick_freeCtr : (s.tick a).freeCtr = s.freeCtr := rfl
@[simp] theorem State.tick_host : (s.tick a).host = hostAfterEdge a s.host := rfl
@[simp] theorem State.tick_lines : (s.tick a).lines = s.lines := rfl
@[simp] theorem State.tick_program : (s.tick a).program = s.program := rfl
end tick

section startPhase
variable (s : State) (p : Phase) (n : Nat)
@[simp] theorem State.startPhase_cfg : (s.startPhase p n).cfg = s.cfg := rfl
@[simp] theorem State.startPhase_fsm : (s.startPhase p n).fsm = s.fsm := rfl
@[simp] theorem State.startPhase_opR : (s.startPhase p n).opR = s.opR := rfl
@[simp] theorem State.startPhase_rowR : (s.startPhase p n).rowR = s.rowR := rfl
@[simp] theorem State.startPhase_argR : (s.startPhase p n).argR = s.argR := rfl
@[simp] theorem State.startPhase_ap : (s.startPhase p n).ap = s.ap := rfl
@[simp] theorem State.startPhase_ph : (s.startPhase p n).ph = p := rfl
@[simp] theorem State.startPhase_cnt : (s.startPhase p n).cnt = n := rfl
@[simp] theorem State.startPhase_dbR : (s.startPhase p n).dbR = s.dbR := rfl
@[simp] theorem State.startPhase_rsR : (s.startPhase p n).rsR = s.rsR := rfl
@[simp] theorem State.startPhase_eR : (s.startPhase p n).eR = s.eR := rfl
@[simp] theorem State.startPhase_samples : (s.startPhase p n).samples = s.samples := rfl
@[simp] theorem State.startPhase_t : (s.startPhase p n).t = s.t := rfl
@[simp] theorem State.startPhase_mon : (s.startPhase p n).mon = s.mon := rfl
@[simp] theorem State.startPhase_refused : (s.startPhase p n).refused = s.refused := rfl
@[simp] theorem State.startPhase_freeCtr : (s.startPhase p n).freeCtr = s.freeCtr := rfl
@[simp] theorem State.startPhase_host : (s.startPhase p n).host = s.host := rfl
@[simp] theorem State.startPhase_lines : (s.startPhase p n).lines = s.lines := rfl
@[simp] theorem State.startPhase_program : (s.startPhase p n).program = s.program := rfl
end startPhase

section driveLines
variable (s : State) (v : Nibble) (m e : Level)
@[simp] theorem State.driveLines_cfg : (s.driveLines v m e).cfg = s.cfg := rfl
@[simp] theorem State.driveLines_fsm : (s.driveLines v m e).fsm = s.fsm := rfl
@[simp] theorem State.driveLines_opR : (s.driveLines v m e).opR = s.opR := rfl
@[simp] theorem State.driveLines_rowR : (s.driveLines v m e).rowR = s.rowR := rfl
@[simp] theorem State.driveLines_argR : (s.driveLines v m e).argR = s.argR := rfl
@[simp] theorem State.driveLines_ap : (s.driveLines v m e).ap = s.ap := rfl
@[simp] theorem State.driveLines_ph : (s.driveLines v m e).ph = s.ph := rfl
@[simp] theorem State.driveLines_cnt : (s.driveLines v m e).cnt = s.cnt := rfl
@[simp] theorem State.driveLines_dbR : (s.driveLines v m e).dbR = v := rfl
@[simp] theorem State.driveLines_rsR : (s.driveLines v m e).rsR = m := rfl
@[simp] theorem State.driveLines_eR : (s.driveLines v m e).eR = e := rfl
@[simp] theorem State.driveLines_samples : (s.driveLines v m e).samples = s.samples := rfl
@[simp] theorem State.driveLines_t : (s.driveLines v m e).t = s.t := rfl
@[simp] theorem State.driveLines_mon : (s.driveLines v m e).mon = s.mon := rfl
@[simp] theorem State.driveLines_refused : (s.driveLines v m e).refused = s.refused := rfl
@[simp] theorem State.driveLines_freeCtr : (s.driveLines v m e).freeCtr = s.freeCtr := rfl
@[simp] theorem State.driveLines_host : (s.driveLines v m e).host = s.host := rfl
@[simp] theorem State.driveLines_program : (s.driveLines v m e).program = s.program := rfl
end driveLines

section setE
variable (s : State) (e : Level)
@[simp] theorem State.setE_cfg : (s.setE e).cfg = s.cfg := rfl
@[simp] theorem State.setE_fsm : (s.setE e).fsm = s.fsm := rfl
@[simp] theorem State.setE_opR : (s.setE e).opR = s.opR := rfl
@[simp] theorem State.setE_rowR : (s.setE e).rowR = s.rowR := rfl
@[simp] theorem State.setE_argR : (s.setE e).argR = s.argR := rfl
@[simp] theorem State.setE_ap : (s.setE e).ap = s.ap := rfl
@[simp] theorem State.setE_ph : (s.setE e).ph = s.ph := rfl
@[simp] theorem State.setE_cnt : (s.setE e).cnt = s.cnt := rfl
@[simp] theorem State.setE_dbR : (s.setE e).dbR = s.dbR := rfl
@[simp] theorem State.setE_rsR : (s.setE e).rsR = s.rsR := rfl
@[simp] theorem State.setE_eR : (s.setE e).eR = e := rfl
@[simp] theorem State.setE_samples : (s.setE e).samples = s.samples := rfl
@[simp] theorem State.setE_t : (s.setE e).t = s.t := rfl
@[simp] theorem State.setE_mon : (s.setE e).mon = s.mon := rfl
@[simp] theorem State.setE_refused : (s.setE e).refused = s.refused := rfl
@[simp] theorem State.setE_freeCtr : (s.setE e).freeCtr = s.freeCtr := rfl
@[simp] theorem State.setE_host : (s.setE e).host = s.host := rfl
@[simp] theorem State.setE_program : (s.setE e).program = s.program := rfl
end setE

section countDown
variable (s : State)
@[simp] theorem State.countDown_cfg : (s.countDown).cfg = s.cfg := rfl
@[simp] theorem State.countDown_fsm : (s.countDown).fsm = s.fsm := rfl
@[simp] theorem State.countDown_opR : (s.countDown).opR = s.opR := rfl
@[simp] theorem State.countDown_rowR : (s.countDown).rowR = s.rowR := rfl
@[simp] theorem State.countDown_argR : (s.countDown).argR = s.argR := rfl
@[simp] theorem State.countDown_ap : (s.countDown).ap = s.ap := rfl
@[simp] theorem State.countDown_ph : (s.countDown).ph = s.ph := rfl
@[simp] theorem State.countDown_cnt : (s.countDown).cnt = s.cnt - 1 := rfl
@[simp] theorem State.countDown_dbR : (s.countDown).dbR = s.dbR := rfl
@[simp] theorem State.countDown_rsR : (s.countDown).rsR = s.rsR := rfl
@[simp] theorem State.countDown_eR : (s.countDown).eR = s.eR := rfl
@[simp] theorem State.countDown_samples : (s.countDown).samples = s.samples := rfl
@[simp] theorem State.countDown_t : (s.countDown).t = s.t := rfl
@[simp] theorem State.countDown_mon : (s.countDown).mon = s.mon := rfl
@[simp] theorem State.countDown_refused : (s.countDown).refused = s.refused := rfl
@[simp] theorem State.countDown_freeCtr : (s.countDown).freeCtr = s.freeCtr := rfl
@[simp] theorem State.countDown_host : (s.countDown).host = s.host := rfl
@[simp] theorem State.countDown_lines : (s.countDown).lines = s.lines := rfl
@[simp] theorem State.countDown_program : (s.countDown).program = s.program := rfl
end countDown

section latch
variable (s : State) (o r : Nibble) (g : Byte)
@[simp] theorem State.latch_cfg : (s.latch o r g).cfg = s.cfg := rfl
@[simp] theorem State.latch_fsm : (s.latch o r g).fsm = .run := rfl
@[simp] theorem State.latch_opR : (s.latch o r g).opR = o := rfl
@[simp] theorem State.latch_rowR : (s.latch o r g).rowR = r := rfl
@[simp] theorem State.latch_argR : (s.latch o r g).argR = g := rfl
@[simp] theorem State.latch_ap : (s.latch o r g).ap = 0#5 := rfl
@[simp] theorem State.latch_ph : (s.latch o r g).ph = s.ph := rfl
@[simp] theorem State.latch_cnt : (s.latch o r g).cnt = s.cnt := rfl
@[simp] theorem State.latch_dbR : (s.latch o r g).dbR = s.dbR := rfl
@[simp] theorem State.latch_rsR : (s.latch o r g).rsR = s.rsR := rfl
@[simp] theorem State.latch_eR : (s.latch o r g).eR = s.eR := rfl
@[simp] theorem State.latch_samples : (s.latch o r g).samples = s.samples := rfl
@[simp] theorem State.latch_t : (s.latch o r g).t = s.t := rfl
@[simp] theorem State.latch_mon : (s.latch o r g).mon = s.mon := rfl
@[simp] theorem State.latch_refused : (s.latch o r g).refused = s.refused := rfl
@[simp] theorem State.latch_freeCtr : (s.latch o r g).freeCtr = s.freeCtr := rfl
@[simp] theorem State.latch_host : (s.latch o r g).host = s.host := rfl
@[simp] theorem State.latch_lines : (s.latch o r g).lines = s.lines := rfl
end latch

section advance
variable (s : State)
@[simp] theorem State.advance_cfg : (s.advance).cfg = s.cfg := rfl
@[simp] theorem State.advance_fsm : (s.advance).fsm = s.fsm := rfl
@[simp] theorem State.advance_opR : (s.advance).opR = s.opR := rfl
@[simp] theorem State.advance_rowR : (s.advance).rowR = s.rowR := rfl
@[simp] theorem State.advance_argR : (s.advance).argR = s.argR := rfl
@[simp] theorem State.advance_ap : (s.advance).ap = s.ap + 1#5 := rfl
@[simp] theorem State.advance_ph : (s.advance).ph = s.ph := rfl
@[simp] theorem State.advance_cnt : (s.advance).cnt = s.cnt := rfl
@[simp] theorem State.advance_dbR : (s.advance).dbR = s.dbR := rfl
@[simp] theorem State.advance_rsR : (s.advance).rsR = s.rsR := rfl
@[simp] theorem State.advance_eR : (s.advance).eR = s.eR := rfl
@[simp] theorem State.advance_samples : (s.advance).samples = s.samples := rfl
@[simp] theorem State.advance_t : (s.advance).t = s.t := rfl
@[simp] theorem State.advance_mon : (s.advance).mon = s.mon := rfl
@[simp] theorem State.advance_refused : (s.advance).refused = s.refused := rfl
@[simp] theorem State.advance_freeCtr : (s.advance).freeCtr = s.freeCtr := rfl
@[simp] theorem State.advance_host : (s.advance).host = s.host := rfl
@[simp] theorem State.advance_lines : (s.advance).lines = s.lines := rfl
@[simp] theorem State.advance_program : (s.advance).program = s.program := rfl
end advance

section complete
variable (s : State)
@[simp] theorem State.complete_cfg : (s.complete).cfg = s.cfg := rfl
@[simp] theorem State.complete_fsm : (s.complete).fsm = .idle := rfl
@[simp] theorem State.complete_opR : (s.complete).opR = s.opR := rfl
@[simp] theorem State.complete_rowR : (s.complete).rowR = s.rowR := rfl
@[simp] theorem State.complete_argR : (s.complete).argR = s.argR := rfl
@[simp] theorem State.complete_ap : (s.complete).ap = s.ap := rfl
@[simp] theorem State.complete_ph : (s.complete).ph = s.ph := rfl
@[simp] theorem State.complete_cnt : (s.complete).cnt = s.cnt := rfl
@[simp] theorem State.complete_dbR : (s.complete).dbR = s.dbR := rfl
@[simp] theorem State.complete_rsR : (s.complete).rsR = s.rsR := rfl
@[simp] theorem State.complete_eR : (s.complete).eR = s.eR := rfl
@[simp] theorem State.complete_samples : (s.complete).samples = s.samples := rfl
@[simp] theorem State.complete_t : (s.complete).t = s.t := rfl
@[simp] theorem State.complete_mon : (s.complete).mon = s.mon := rfl
@[simp] theorem State.complete_refused : (s.complete).refused = s.refused := rfl
@[simp] theorem State.complete_freeCtr : (s.complete).freeCtr = s.freeCtr := rfl
@[simp] theorem State.complete_host : (s.complete).host = s.host := rfl
@[simp] theorem State.complete_lines : (s.complete).lines = s.lines := rfl
@[simp] theorem State.complete_program : (s.complete).program = s.program := rfl
end complete

section withMon
variable (s : State) (m : Monitor)
@[simp] theorem State.withMon_cfg : (s.withMon m).cfg = s.cfg := rfl
@[simp] theorem State.withMon_fsm : (s.withMon m).fsm = s.fsm := rfl
@[simp] theorem State.withMon_opR : (s.withMon m).opR = s.opR := rfl
@[simp] theorem State.withMon_rowR : (s.withMon m).rowR = s.rowR := rfl
@[simp] theorem State.withMon_argR : (s.withMon m).argR = s.argR := rfl
@[simp] theorem State.withMon_ap : (s.withMon m).ap = s.ap := rfl
@[simp] theorem State.withMon_ph : (s.withMon m).ph = s.ph := rfl
@[simp] theorem State.withMon_cnt : (s.withMon m).cnt = s.cnt := rfl
@[simp] theorem State.withMon_dbR : (s.withMon m).dbR = s.dbR := rfl
@[simp] theorem State.withMon_rsR : (s.withMon m).rsR = s.rsR := rfl
@[simp] theorem State.withMon_eR : (s.withMon m).eR = s.eR := rfl
@[simp] theorem State.withMon_samples : (s.withMon m).samples = s.samples := rfl
@[simp] theorem State.withMon_t : (s.withMon m).t = s.t := rfl
@[simp] theorem State.withMon_mon : (s.withMon m).mon = m := rfl
@[simp] theorem State.withMon_refused : (s.withMon m).refused = s.refused := rfl
@[simp] theorem State.withMon_freeCtr : (s.withMon m).freeCtr = s.freeCtr := rfl
@[simp] theorem State.withMon_host : (s.withMon m).host = s.host := rfl
@[simp] theorem State.withMon_lines : (s.withMon m).lines = s.lines := rfl
@[simp] theorem State.withMon_program : (s.withMon m).program = s.program := rfl
end withMon

section logSample
variable (s : State)
@[simp] theorem State.logSample_cfg : (s.logSample).cfg = s.cfg := rfl
@[simp] theorem State.logSample_fsm : (s.logSample).fsm = s.fsm := rfl
@[simp] theorem State.logSample_opR : (s.logSample).opR = s.opR := rfl
@[simp] theorem State.logSample_rowR : (s.logSample).rowR = s.rowR := rfl
@[simp] theorem State.logSample_argR : (s.logSample).argR = s.argR := rfl
@[simp] theorem State.logSample_ap : (s.logSample).ap = s.ap := rfl
@[simp] theorem State.logSample_ph : (s.logSample).ph = s.ph := rfl
@[simp] theorem State.logSample_cnt : (s.logSample).cnt = s.cnt := rfl
@[simp] theorem State.logSample_dbR : (s.logSample).dbR = s.dbR := rfl
@[simp] theorem State.logSample_rsR : (s.logSample).rsR = s.rsR := rfl
@[simp] theorem State.logSample_eR : (s.logSample).eR = s.eR := rfl
@[simp] theorem State.logSample_samples : (s.logSample).samples = s.samples ++ [⟨s.t, s.rsR, s.dbR⟩] := rfl
@[simp] theorem State.logSample_t : (s.logSample).t = s.t := rfl
@[simp] theorem State.logSample_mon : (s.logSample).mon = s.mon := rfl
@[simp] theorem State.logSample_refused : (s.logSample).refused = s.refused := rfl
@[simp] theorem State.logSample_freeCtr : (s.logSample).freeCtr = s.freeCtr := rfl
@[simp] theorem State.logSample_host : (s.logSample).host = s.host := rfl
@[simp] theorem State.logSample_lines : (s.logSample).lines = s.lines := rfl
@[simp] theorem State.logSample_program : (s.logSample).program = s.program := rfl
end logSample

section logUnknown
variable (s : State)
@[simp] theorem State.logUnknown_cfg : (s.logUnknown).cfg = s.cfg := rfl
@[simp] theorem State.logUnknown_fsm : (s.logUnknown).fsm = s.fsm := rfl
@[simp] theorem State.logUnknown_opR : (s.logUnknown).opR = s.opR := rfl
@[simp] theorem State.logUnknown_rowR : (s.logUnknown).rowR = s.rowR := rfl
@[simp] theorem State.logUnknown_argR : (s.logUnknown).argR = s.argR := rfl
@[simp] theorem State.logUnknown_ap : (s.logUnknown).ap = s.ap := rfl
@[simp] theorem State.logUnknown_ph : (s.logUnknown).ph = s.ph := rfl
@[simp] theorem State.logUnknown_cnt : (s.logUnknown).cnt = s.cnt := rfl
@[simp] theorem State.logUnknown_dbR : (s.logUnknown).dbR = s.dbR := rfl
@[simp] theorem State.logUnknown_rsR : (s.logUnknown).rsR = s.rsR := rfl
@[simp] theorem State.logUnknown_eR : (s.logUnknown).eR = s.eR := rfl
@[simp] theorem State.logUnknown_samples : (s.logUnknown).samples = s.samples ++ [⟨s.t, Config.freeRs s.freeCtr, Config.freeNib s.freeCtr⟩] := rfl
@[simp] theorem State.logUnknown_t : (s.logUnknown).t = s.t := rfl
@[simp] theorem State.logUnknown_mon : (s.logUnknown).mon = s.mon := rfl
@[simp] theorem State.logUnknown_refused : (s.logUnknown).refused = s.refused := rfl
@[simp] theorem State.logUnknown_freeCtr : (s.logUnknown).freeCtr = s.freeCtr + 1 := rfl
@[simp] theorem State.logUnknown_host : (s.logUnknown).host = s.host := rfl
@[simp] theorem State.logUnknown_lines : (s.logUnknown).lines = s.lines := rfl
@[simp] theorem State.logUnknown_program : (s.logUnknown).program = s.program := rfl
end logUnknown

section refuse
variable (s : State)
@[simp] theorem State.refuse_cfg : (s.refuse).cfg = s.cfg := rfl
@[simp] theorem State.refuse_fsm : (s.refuse).fsm = s.fsm := rfl
@[simp] theorem State.refuse_opR : (s.refuse).opR = s.opR := rfl
@[simp] theorem State.refuse_rowR : (s.refuse).rowR = s.rowR := rfl
@[simp] theorem State.refuse_argR : (s.refuse).argR = s.argR := rfl
@[simp] theorem State.refuse_ap : (s.refuse).ap = s.ap := rfl
@[simp] theorem State.refuse_ph : (s.refuse).ph = s.ph := rfl
@[simp] theorem State.refuse_cnt : (s.refuse).cnt = s.cnt := rfl
@[simp] theorem State.refuse_dbR : (s.refuse).dbR = s.dbR := rfl
@[simp] theorem State.refuse_rsR : (s.refuse).rsR = s.rsR := rfl
@[simp] theorem State.refuse_eR : (s.refuse).eR = s.eR := rfl
@[simp] theorem State.refuse_samples : (s.refuse).samples = s.samples := rfl
@[simp] theorem State.refuse_t : (s.refuse).t = s.t := rfl
@[simp] theorem State.refuse_mon : (s.refuse).mon = s.mon := rfl
@[simp] theorem State.refuse_refused : (s.refuse).refused = true := rfl
@[simp] theorem State.refuse_freeCtr : (s.refuse).freeCtr = s.freeCtr := rfl
@[simp] theorem State.refuse_host : (s.refuse).host = s.host := rfl
@[simp] theorem State.refuse_lines : (s.refuse).lines = s.lines := rfl
@[simp] theorem State.refuse_program : (s.refuse).program = s.program := rfl
end refuse

section clearRegs
variable (s : State)
@[simp] theorem State.clearRegs_cfg : (s.clearRegs).cfg = s.cfg := rfl
@[simp] theorem State.clearRegs_fsm : (s.clearRegs).fsm = .idle := rfl
@[simp] theorem State.clearRegs_opR : (s.clearRegs).opR = 0x0#4 := rfl
@[simp] theorem State.clearRegs_rowR : (s.clearRegs).rowR = 0x0#4 := rfl
@[simp] theorem State.clearRegs_argR : (s.clearRegs).argR = 0x00#8 := rfl
@[simp] theorem State.clearRegs_ap : (s.clearRegs).ap = 0#5 := rfl
@[simp] theorem State.clearRegs_ph : (s.clearRegs).ph = .wait := rfl
@[simp] theorem State.clearRegs_cnt : (s.clearRegs).cnt = 0 := rfl
@[simp] theorem State.clearRegs_dbR : (s.clearRegs).dbR = 0x0#4 := rfl
@[simp] theorem State.clearRegs_rsR : (s.clearRegs).rsR = false := rfl
@[simp] theorem State.clearRegs_eR : (s.clearRegs).eR = false := rfl
@[simp] theorem State.clearRegs_samples : (s.clearRegs).samples = s.samples := rfl
@[simp] theorem State.clearRegs_t : (s.clearRegs).t = s.t := rfl
@[simp] theorem State.clearRegs_mon : (s.clearRegs).mon = s.mon := rfl
@[simp] theorem State.clearRegs_refused : (s.clearRegs).refused = s.refused := rfl
@[simp] theorem State.clearRegs_freeCtr : (s.clearRegs).freeCtr = s.freeCtr := rfl
@[simp] theorem State.clearRegs_host : (s.clearRegs).host = s.host := rfl
end clearRegs

@[simp] theorem State.driveLines_lines (s : State) (v : Nibble) (m e : Level) :
    (s.driveLines v m e).lines = ⟨v, m, e⟩ := rfl

@[simp] theorem State.clearRegs_lines (s : State) : s.clearRegs.lines = Lines.low := rfl

@[simp] theorem State.latch_program (s : State) (o r : Nibble) (g : Byte) :
    (s.latch o r g).program = expand s.cfg o r g := rfl

end Sys2Proof.Machine
end

