-- ==== Sys2Proof/Laws/Ops.lean ====
section
/-! SUPPORT. One lemma for each shared operation that says all it can do, and the inversion of the step: every later
proof cites these instead of unfolding the machine. -/

namespace Sys2Proof.Machine

/-! ### Entering an action (R122) -/

@[simp] theorem enter_driveLow (s : State) :
    enter .driveLow s = (s.driveLines 0x0#4 false false).startPhase .wait 1 := rfl

@[simp] theorem enter_wait (n : Nat) (s : State) : enter (.wait n) s = s.startPhase .wait n := rfl

@[simp] theorem enter_nibble (v : Nibble) (m : Level) (s : State) :
    enter (.nibble v m) s = (s.driveLines v m false).startPhase .setup s.cfg.eLow := rfl

/-- Entering an action writes the lines, `ph` and `cnt` and nothing else. -/
theorem enter_frame (a : Action) (s : State) :
    (enter a s).cfg = s.cfg ∧ (enter a s).fsm = s.fsm ∧ (enter a s).opR = s.opR ∧ (enter a s).rowR = s.rowR ∧
    (enter a s).argR = s.argR ∧ (enter a s).ap = s.ap ∧ (enter a s).samples = s.samples ∧ (enter a s).t = s.t ∧
    (enter a s).mon = s.mon ∧ (enter a s).refused = s.refused ∧ (enter a s).freeCtr = s.freeCtr ∧
    (enter a s).host = s.host := by
  cases a <;> simp

@[simp] theorem enter_cfg (a : Action) (s : State) : (enter a s).cfg = s.cfg := (enter_frame a s).1
@[simp] theorem enter_fsm (a : Action) (s : State) : (enter a s).fsm = s.fsm := (enter_frame a s).2.1
@[simp] theorem enter_opR (a : Action) (s : State) : (enter a s).opR = s.opR := (enter_frame a s).2.2.1
@[simp] theorem enter_rowR (a : Action) (s : State) : (enter a s).rowR = s.rowR := (enter_frame a s).2.2.2.1
@[simp] theorem enter_argR (a : Action) (s : State) : (enter a s).argR = s.argR := (enter_frame a s).2.2.2.2.1
@[simp] theorem enter_ap (a : Action) (s : State) : (enter a s).ap = s.ap := (enter_frame a s).2.2.2.2.2.1
@[simp] theorem enter_samples (a : Action) (s : State) : (enter a s).samples = s.samples :=
  (enter_frame a s).2.2.2.2.2.2.1
@[simp] theorem enter_t (a : Action) (s : State) : (enter a s).t = s.t := (enter_frame a s).2.2.2.2.2.2.2.1
@[simp] theorem enter_mon (a : Action) (s : State) : (enter a s).mon = s.mon := (enter_frame a s).2.2.2.2.2.2.2.2.1
@[simp] theorem enter_refused (a : Action) (s : State) : (enter a s).refused = s.refused :=
  (enter_frame a s).2.2.2.2.2.2.2.2.2.1
@[simp] theorem enter_freeCtr (a : Action) (s : State) : (enter a s).freeCtr = s.freeCtr :=
  (enter_frame a s).2.2.2.2.2.2.2.2.2.2.1
@[simp] theorem enter_host (a : Action) (s : State) : (enter a s).host = s.host :=
  (enter_frame a s).2.2.2.2.2.2.2.2.2.2.2

@[simp] theorem enter_program (a : Action) (s : State) : (enter a s).program = s.program := by
  simp [State.program]

/-- The levels right after an action is entered are those of its cycle 0, when E is held low at least one cycle. -/
theorem enter_lines (a : Action) (s : State) (h : 1 ≤ s.cfg.eLow) :
    (enter a s).lines = actionLines s.cfg s.lines 0 a := by
  cases a <;> simp [actionLines, Lines.low, State.lines]
  omega

/-! ### Acceptance (R123) -/

@[simp] theorem enterFirst_cons (a : Action) (P : Program) (s : State) : enterFirst (a :: P) s = enter a s := rfl

/-- An acceptance enters the first action of its program over the latched request. -/
theorem accept_cons (op row : Nibble) (arg : Byte) (mon : Monitor) (a : Action) (P : Program) (s : State) :
    accept op row arg mon (a :: P) s = enter a ((s.withMon mon).latch op row arg) := rfl

/-- Every meaning is an acceptance: it always answers a next state. -/
theorem exec_eq_accept (i : Instr) (s : State) :
    exec i s = .next (accept i.op i.row i.arg (monAfterAccept s.cfg s.mon i) (requestProgram s.cfg i) s) := by
  cases i <;> rfl

/-- `expand` of a request's fields is its program (R87, R126). -/
@[simp] theorem expand_request (cfg : Config) (i : Instr) :
    expand cfg i.op i.row i.arg = some (requestProgram cfg i) := by
  cases i <;> rfl

/-- The request whose fields are `op`, `row` and `arg`: `expand` is defined for the five OP values only (R126). -/
theorem expand_eq_some {cfg : Config} {op row : Nibble} {arg : Byte} {P : Program} (h : expand cfg op row arg = some P) :
    ∃ i : Instr, i.op = op ∧ P = requestProgram cfg i := by
  unfold expand at h
  split at h
  · exact ⟨.init row arg, by simp_all [Instr.op], by simpa [requestProgram] using h.symm⟩
  split at h
  · exact ⟨.cmd row arg, by simp_all [Instr.op], by simpa [requestProgram] using h.symm⟩
  split at h
  · exact ⟨.data row arg, by simp_all [Instr.op], by simpa [requestProgram] using h.symm⟩
  split at h
  · exact ⟨.setcur row arg, by simp_all [Instr.op], by simpa [requestProgram] using h.symm⟩
  split at h
  · exact ⟨.clear row arg, by simp_all [Instr.op], by simpa [requestProgram] using h.symm⟩
  · cases h

/-- A request's program has a first action and at most 19 (R26). -/
theorem program_length (cfg : Config) (i : Instr) : 1 ≤ (requestProgram cfg i).length ∧ (requestProgram cfg i).length ≤ 19 := by
  cases i <;> simp [requestProgram, progInit, progCmd, progData, progSetcur, progClear, byteProgram]

/-- A request's program is a first action and the rest. -/
theorem program_cons (cfg : Config) (i : Instr) : ∃ a P, requestProgram cfg i = a :: P := by
  cases i <;> exact ⟨_, _, rfl⟩

/-! ### Elaborations (R27, R113) -/

/-- An elaboration's cycle parameters are at least 1 and below 2^P_CNT_W. -/
theorem elaborates_iff (cfg : Config) :
    cfg.elaborates = true ↔ ∀ n ∈ cfg.cycleParams, 1 ≤ n ∧ n < 2 ^ cfg.cntW := by
  simp [Config.elaborates]

theorem le_largest {cfg : Config} {n : Nat} (h : n ∈ cfg.cycleParams) : n ≤ cfg.largest := by
  have key : ∀ l : List Nat, n ∈ l → n ≤ l.foldr max 0 := by
    intro l
    induction l with
    | nil => simp
    | cons a l ih =>
      simp only [List.mem_cons, List.foldr_cons]
      rintro (rfl | h)
      · exact le_max_left _ _
      · exact (ih h).trans (le_max_right _ _)
  exact key _ h

theorem largest_lt {cfg : Config} (h : cfg.elaborates = true) : cfg.largest < 2 ^ cfg.cntW := by
  have key : ∀ l : List Nat, (∀ n ∈ l, n < 2 ^ cfg.cntW) → l.foldr max 0 < 2 ^ cfg.cntW := by
    intro l
    induction l with
    | nil => intro _; exact Nat.two_pow_pos _
    | cons a l ih => intro hl; simp only [List.foldr_cons]; exact max_lt (hl a (by simp)) (ih fun n hn => hl n (by simp [hn]))
  exact key _ fun n hn => ((elaborates_iff cfg).1 h n hn).2

theorem eLow_pos {cfg : Config} (h : cfg.elaborates = true) : 1 ≤ cfg.eLow :=
  ((elaborates_iff cfg).1 h _ (by simp [Config.cycleParams])).1

theorem eHigh_pos {cfg : Config} (h : cfg.elaborates = true) : 1 ≤ cfg.eHigh :=
  ((elaborates_iff cfg).1 h _ (by simp [Config.cycleParams])).1

/-- Every WAIT of a request's program lasts one of the cycle parameters. -/
theorem wait_mem_cycleParams {cfg : Config} {i : Instr} {n : Nat} (h : Action.wait n ∈ requestProgram cfg i) :
    n ∈ cfg.cycleParams := by
  cases i <;>
    simp [requestProgram, progInit, progCmd, progData, progSetcur, progClear, byteProgram] at h <;>
    simp [Config.cycleParams] <;> tauto

/-- In an elaboration every action of a request's program lasts at least one cycle. -/
theorem actionDur_pos {cfg : Config} (h : cfg.elaborates = true) {i : Instr} {a : Action} (ha : a ∈ requestProgram cfg i) :
    1 ≤ actionDur cfg a := by
  cases a with
  | driveLow => simp [actionDur]
  | wait n => exact ((elaborates_iff cfg).1 h n (wait_mem_cycleParams ha)).1
  | nibble v m => have := eHigh_pos h; simp [actionDur, nibbleCycles]; omega

/-! ### The reset edge (R200, R201, R187) -/

@[simp] theorem resetSample_low {s : State} (h : s.eR = false) : resetSample s = s := by simp [resetSample, h]
@[simp] theorem resetSample_high {s : State} (h : s.eR = true) : resetSample s = s.logUnknown := by
  simp [resetSample, h]

/-- All that a reset edge leaves: the reset values, the monitor after R187, and one unknown sample if E was high. -/
theorem resetEdge_spec (s : State) :
    (resetEdge s).cfg = s.cfg ∧ (resetEdge s).fsm = .idle ∧ (resetEdge s).lines = Lines.low ∧
    (resetEdge s).mon = s.mon.reset s.fsm ∧ (resetEdge s).t = s.t ∧ (resetEdge s).host = s.host ∧
    (resetEdge s).refused = s.refused ∧
    (resetEdge s).samples =
      s.samples ++ (if s.eR then [⟨s.t, Config.freeRs s.freeCtr, Config.freeNib s.freeCtr⟩] else []) := by
  cases h : s.eR <;> simp [resetEdge, h]

/-! ### The run step (R124) -/

@[simp] theorem fallE_cfg (s : State) : (fallE s).cfg = s.cfg := rfl
@[simp] theorem fallE_fsm (s : State) : (fallE s).fsm = s.fsm := rfl
@[simp] theorem fallE_opR (s : State) : (fallE s).opR = s.opR := rfl
@[simp] theorem fallE_rowR (s : State) : (fallE s).rowR = s.rowR := rfl
@[simp] theorem fallE_argR (s : State) : (fallE s).argR = s.argR := rfl
@[simp] theorem fallE_ap (s : State) : (fallE s).ap = s.ap := rfl
@[simp] theorem fallE_dbR (s : State) : (fallE s).dbR = s.dbR := rfl
@[simp] theorem fallE_rsR (s : State) : (fallE s).rsR = s.rsR := rfl
@[simp] theorem fallE_t (s : State) : (fallE s).t = s.t := rfl
@[simp] theorem fallE_refused (s : State) : (fallE s).refused = s.refused := rfl
@[simp] theorem fallE_freeCtr (s : State) : (fallE s).freeCtr = s.freeCtr := rfl
@[simp] theorem fallE_host (s : State) : (fallE s).host = s.host := rfl
@[simp] theorem fallE_program (s : State) : (fallE s).program = s.program := rfl
@[simp] theorem fallE_eR (s : State) : (fallE s).eR = false := rfl
@[simp] theorem fallE_ph (s : State) : (fallE s).ph = .tail := rfl
@[simp] theorem fallE_cnt (s : State) : (fallE s).cnt = s.cfg.eLow := rfl
@[simp] theorem fallE_samples (s : State) : (fallE s).samples = s.samples ++ [⟨s.t, s.rsR, s.dbR⟩] := rfl
@[simp] theorem fallE_mon (s : State) : (fallE s).mon = s.mon.sample s.opR s.ap := rfl

/-- Inside a phase only `cnt` counts. -/
theorem runEdge_count {P : Program} {s : State} (h : 1 < s.cnt) : runEdge P s = s.countDown := by simp [runEdge, h]

theorem runEdge_end {P : Program} {s : State} (h : s.cnt ≤ 1) : runEdge P s = endPhase P s := by
  simp [runEdge, Nat.not_lt.2 h]

theorem endPhase_setup {P : Program} {s : State} (h : s.ph = .setup) :
    endPhase P s = (s.setE true).startPhase .high s.cfg.eHigh := by simp [endPhase, h]

theorem endPhase_high {P : Program} {s : State} (h : s.ph = .high) : endPhase P s = fallE s := by simp [endPhase, h]

theorem endPhase_tail {P : Program} {s : State} (h : s.ph = .tail) : endPhase P s = endAction P s := by
  simp [endPhase, h]

theorem endPhase_wait {P : Program} {s : State} (h : s.ph = .wait) : endPhase P s = endAction P s := by
  simp [endPhase, h]

theorem endAction_next {P : Program} {s : State} {a : Action} (h : P[s.ap.toNat + 1]? = some a) :
    endAction P s = enter a s.advance := by simp [endAction, h]

theorem endAction_last {P : Program} {s : State} (h : P[s.ap.toNat + 1]? = none) : endAction P s = s.complete := by
  simp [endAction, h]

/-- All that a run step can do: count, raise E, drop E with a sample, enter the next action, or complete. -/
theorem runEdge_cases (P : Program) (s : State) :
    (1 < s.cnt ∧ runEdge P s = s.countDown) ∨
    (s.cnt ≤ 1 ∧ s.ph = .setup ∧ runEdge P s = (s.setE true).startPhase .high s.cfg.eHigh) ∨
    (s.cnt ≤ 1 ∧ s.ph = .high ∧ runEdge P s = fallE s) ∨
    (s.cnt ≤ 1 ∧ (s.ph = .tail ∨ s.ph = .wait) ∧
      ∃ a, P[s.ap.toNat + 1]? = some a ∧ runEdge P s = enter a s.advance) ∨
    (s.cnt ≤ 1 ∧ (s.ph = .tail ∨ s.ph = .wait) ∧ P[s.ap.toNat + 1]? = none ∧ runEdge P s = s.complete) := by
  rcases Nat.lt_or_ge 1 s.cnt with h | h
  · exact .inl ⟨h, runEdge_count h⟩
  · rw [runEdge_end h]
    have last : endPhase P s = endAction P s →
        (∃ a, P[s.ap.toNat + 1]? = some a ∧ endPhase P s = enter a s.advance) ∨
        (P[s.ap.toNat + 1]? = none ∧ endPhase P s = s.complete) := by
      intro e
      cases hP : P[s.ap.toNat + 1]? with
      | none => exact .inr ⟨rfl, e.trans (endAction_last hP)⟩
      | some a => exact .inl ⟨a, rfl, e.trans (endAction_next hP)⟩
    cases hp : s.ph with
    | setup => exact .inr (.inl ⟨h, rfl, endPhase_setup hp⟩)
    | high => exact .inr (.inr (.inl ⟨h, rfl, endPhase_high hp⟩))
    | tail =>
      rcases last (endPhase_tail hp) with e | e
      · exact .inr (.inr (.inr (.inl ⟨h, .inl rfl, e⟩)))
      · exact .inr (.inr (.inr (.inr ⟨h, .inl rfl, e.1, e.2⟩)))
    | wait =>
      rcases last (endPhase_wait hp) with e | e
      · exact .inr (.inr (.inr (.inl ⟨h, .inr rfl, e⟩)))
      · exact .inr (.inr (.inr (.inr ⟨h, .inr rfl, e.1, e.2⟩)))

/-- A run step leaves the request, the configuration, the edge number, the host and the marks. -/
theorem runEdge_frame (P : Program) (s : State) :
    (runEdge P s).cfg = s.cfg ∧ (runEdge P s).opR = s.opR ∧ (runEdge P s).rowR = s.rowR ∧
    (runEdge P s).argR = s.argR ∧ (runEdge P s).t = s.t ∧ (runEdge P s).refused = s.refused ∧
    (runEdge P s).freeCtr = s.freeCtr ∧ (runEdge P s).host = s.host ∧ (runEdge P s).mon.viol = s.mon.viol := by
  rcases runEdge_cases P s with ⟨_, e⟩ | ⟨_, _, e⟩ | ⟨_, _, e⟩ | ⟨_, _, a, _, e⟩ | ⟨_, _, _, e⟩ <;>
    rw [e] <;> simp

/-- A state with another ROW, ARG and host: what a run step does not read. -/
def State.overlay (s : State) (row : Nibble) (arg : Byte) (h : List HostAct) : State :=
  { s with rowR := row, argR := arg, host := h }

theorem enter_overlay (a : Action) (s : State) (row : Nibble) (arg : Byte) (h : List HostAct) :
    enter a (s.overlay row arg h) = (enter a s).overlay row arg h := by cases a <;> rfl

/-- The run step reads neither the ROW and ARG registers, once the program is given, nor the host. -/
theorem runEdge_overlay (P : Program) (s : State) (row : Nibble) (arg : Byte) (h : List HostAct) :
    runEdge P (s.overlay row arg h) = (runEdge P s).overlay row arg h := by
  have last : endAction P (s.overlay row arg h) = (endAction P s).overlay row arg h := by
    cases hP : P[s.ap.toNat + 1]? with
    | none => rw [endAction_last hP, endAction_last (s := s.overlay row arg h) hP]; rfl
    | some a =>
      rw [endAction_next hP, endAction_next (s := s.overlay row arg h) hP]
      exact enter_overlay a s.advance row arg h
  rcases Nat.lt_or_ge 1 s.cnt with hc | hc
  · rw [runEdge_count hc, runEdge_count (s := s.overlay row arg h) hc]; rfl
  · rw [runEdge_end hc, runEdge_end (s := s.overlay row arg h) hc]
    cases hp : s.ph with
    | setup => rw [endPhase_setup hp, endPhase_setup (s := s.overlay row arg h) hp]; rfl
    | high => rw [endPhase_high hp, endPhase_high (s := s.overlay row arg h) hp]; rfl
    | tail => rw [endPhase_tail hp, endPhase_tail (s := s.overlay row arg h) hp, last]
    | wait => rw [endPhase_wait hp, endPhase_wait (s := s.overlay row arg h) hp, last]

/-! ### The step (R190) -/

theorem step_of_legal {s : State} (h : s.cfg.elaborates = true) : step s = stepOnce s := by
  simp [step, stepLegal, h]

/-- The acts after an event. -/
theorem stepOnce_edge {s : State} (h : eventNext s.host = false) : stepOnce s = edge s := by
  unfold stepOnce
  split <;> simp_all [eventNext]

/-- An edge with `rst == 1` in the cycle before it. -/
theorem edge_reset {s : State} (h : s.port.rst = true) : edge s = .next (resetEdge (s.tick false)) := by
  simp [edge, edgeWith, h, State.accepts, State.reqReady]

/-- An edge that takes a run step. -/
theorem edge_run {s : State} {P : Program} (hr : s.port.rst = false) (hf : s.fsm = .run) (hP : s.program = some P) :
    edge s = .next (runEdge P (s.tick false)) := by
  simp [edge, edgeWith, hr, hf, State.accepts, State.reqReady, runStep, hP]

/-- An edge that accepts a word. -/
theorem edge_accept {s : State} (hr : s.port.rst = false) (hf : s.fsm = .idle) (hv : s.port.reqValid = true) :
    edge s = acceptWord s.port.reqWord (s.tick true) := by
  simp [edge, edgeWith, hr, hf, State.accepts, State.reqReady, idleEdge, hv]

/-- An edge at which nothing happens. -/
theorem edge_idle {s : State} (hr : s.port.rst = false) (hf : s.fsm = .idle) (hv : s.port.reqValid = false) :
    edge s = .next (s.tick false) := by
  simp [edge, edgeWith, hr, hf, State.accepts, State.reqReady, idleEdge, hv]

/-- All that a step can do when it answers a next state. -/
theorem step_cases {s u : State} (h : step s = .next u) :
    s.cfg.elaborates = true ∧
    ((∃ r, s.host = .powerCycle :: r ∧ u = powerCycle { s with host := r }) ∨
     (∃ r, s.host = .otherInit :: r ∧ u = askOtherInit { s with host := r }) ∨
     (eventNext s.host = false ∧ s.port.rst = true ∧ u = resetEdge (s.tick false)) ∨
     (∃ P, eventNext s.host = false ∧ s.port.rst = false ∧ s.fsm = .run ∧ s.program = some P ∧
        u = runEdge P (s.tick false)) ∨
     (∃ i, eventNext s.host = false ∧ s.port.rst = false ∧ s.fsm = .idle ∧ s.port.reqValid = true ∧
        decode s.port.reqWord = .ok i ∧ exec i (s.tick true) = .next u) ∨
     (∃ err, eventNext s.host = false ∧ s.port.rst = false ∧ s.fsm = .idle ∧ s.port.reqValid = true ∧
        decode s.port.reqWord = .error err ∧ u = acceptReserved (s.tick true)) ∨
     (eventNext s.host = false ∧ s.port.rst = false ∧ s.fsm = .idle ∧ s.port.reqValid = false ∧ u = s.tick false)) := by
  cases hc : s.cfg.elaborates with
  | false => simp [step, stepLegal, hc] at h
  | true =>
    refine ⟨rfl, ?_⟩
    rw [step_of_legal hc] at h
    cases he : eventNext s.host with
    | true =>
      unfold stepOnce at h
      split at h
      · exact .inl ⟨_, ‹_›, by simpa using h.symm⟩
      · exact .inr (.inl ⟨_, ‹_›, by simpa using h.symm⟩)
      · next h1 h2 =>
        exfalso
        unfold eventNext at he
        split at he
        · exact h1 _ ‹_›
        · exact h2 _ ‹_›
        · cases he
    | false =>
      rw [stepOnce_edge he] at h
      cases hr : s.port.rst with
      | true => rw [edge_reset hr] at h; exact .inr (.inr (.inl ⟨rfl, rfl, by simpa using h.symm⟩))
      | false =>
        cases hf : s.fsm with
        | run =>
          cases hP : s.program with
          | none => simp [edge, edgeWith, hr, hf, State.accepts, State.reqReady, runStep, hP] at h
          | some P =>
            rw [edge_run hr hf hP] at h
            exact .inr (.inr (.inr (.inl ⟨P, rfl, rfl, rfl, rfl, by simpa using h.symm⟩)))
        | idle =>
          cases hv : s.port.reqValid with
          | false =>
            rw [edge_idle hr hf hv] at h
            exact .inr (.inr (.inr (.inr (.inr (.inr ⟨rfl, rfl, rfl, rfl, by simpa using h.symm⟩)))))
          | true =>
            rw [edge_accept hr hf hv, acceptWord] at h
            cases hd : decode s.port.reqWord with
            | ok i => rw [hd] at h; exact .inr (.inr (.inr (.inr (.inl ⟨i, rfl, rfl, rfl, rfl, rfl, h⟩))))
            | error err =>
              rw [hd] at h
              exact .inr (.inr (.inr (.inr (.inr (.inl ⟨err, rfl, rfl, rfl, rfl, rfl, by simpa using h.symm⟩)))))

end Sys2Proof.Machine
end

