-- ==== Sys2Proof/Laws/Coherent.lean ====
section
/-! SUPPORT. The invariant `State.Coherent` case by case, and that entering an action establishes it. -/

namespace Sys2Proof.Machine

theorem coherent_run {s : State} (hf : s.fsm = .run) : s.Coherent ↔
    ∃ P a, s.program = some P ∧ P[s.ap.toNat]? = some a ∧ DuringAction s.cfg a s.ph s.cnt s.lines := by
  simp [State.Coherent, hf]

theorem coherent_idle {s : State} (hf : s.fsm = .idle) : s.Coherent ↔ s.eR = false := by
  simp [State.Coherent, hf]

/-- The five moments of an action: SETUP, HIGH and TAIL of a NIBBLE, a WAIT, and DRIVE_LOW. -/
theorem during_cases {cfg : Config} {a : Action} {ph : Phase} {cnt : Nat} {l : Lines}
    (h : DuringAction cfg a ph cnt l) :
    (∃ v m, a = .nibble v m ∧ ph = .setup ∧ l = ⟨v, m, false⟩ ∧ 1 ≤ cnt ∧ cnt ≤ cfg.eLow) ∨
    (∃ v m, a = .nibble v m ∧ ph = .high ∧ l = ⟨v, m, true⟩ ∧ 1 ≤ cnt ∧ cnt ≤ cfg.eHigh) ∨
    (∃ v m, a = .nibble v m ∧ ph = .tail ∧ l = ⟨v, m, false⟩ ∧ 1 ≤ cnt ∧ cnt ≤ cfg.eLow) ∨
    (∃ n, a = .wait n ∧ ph = .wait ∧ l.e = false ∧ 1 ≤ cnt ∧ cnt ≤ n) ∨
    (a = .driveLow ∧ ph = .wait ∧ l = Lines.low ∧ cnt = 1) := by
  cases a <;> cases ph <;> simp_all [DuringAction]

/-- Outside HIGH, E is low. -/
theorem during_low {cfg : Config} {a : Action} {ph : Phase} {cnt : Nat} {l : Lines}
    (h : DuringAction cfg a ph cnt l) (hp : ph ≠ .high) : l.e = false := by
  rcases during_cases h with ⟨v, m, _, _, e, _⟩ | ⟨v, m, _, q, _⟩ | ⟨v, m, _, _, e, _⟩ | ⟨n, _, _, e, _⟩ | ⟨_, _, e, _⟩
  · rw [e]
  · exact absurd q hp
  · rw [e]
  · exact e
  · rw [e]; rfl

/-- A request's program, as the registers name it, has at most 19 actions (R26). -/
theorem program_le {s : State} {P : Program} (hP : s.program = some P) : P.length ≤ 19 := by
  obtain ⟨i, _, rfl⟩ := expand_eq_some hP
  exact (program_length _ _).2

/-- Where there is a next action, `ap + 1` does not wrap (R26). -/
theorem ap_succ {s : State} {P : Program} {a : Action} (hP : s.program = some P) (ha : P[s.ap.toNat + 1]? = some a) :
    (s.ap + 1#5).toNat = s.ap.toNat + 1 := by
  have hl := program_le hP
  have hap : s.ap.toNat + 1 < P.length := by
    by_contra hge
    rw [List.getElem?_eq_none (by omega)] at ha
    cases ha
  rw [BitVec.toNat_add]
  simp
  omega

/-- Entering an action with E low leaves the registers coherent. -/
theorem coherent_enter {s : State} {P : Program} {a : Action} (hc : s.cfg.elaborates = true) (hf : s.fsm = .run)
    (hP : s.program = some P) (ha : P[s.ap.toNat]? = some a) (hE : s.eR = false) : (enter a s).Coherent := by
  rw [coherent_run (by simpa using hf)]
  refine ⟨P, a, by simpa using hP, by simpa using ha, ?_⟩
  have hL := eLow_pos hc
  obtain ⟨i, _, rfl⟩ := expand_eq_some hP
  have hpos := actionDur_pos hc (List.mem_of_getElem? ha)
  cases a with
  | driveLow => simp [DuringAction, Lines.low]
  | wait n =>
    simp only [actionDur] at hpos
    simp [DuringAction, State.lines, hE, hpos]
  | nibble v m => simp [DuringAction]; omega

end Sys2Proof.Machine
end

