-- ==== Sys2Proof/Laws/Encoding.lean ====
section
/-! SUPPORT. The fields of a packed word and the word of its fields: the lemmas the decoder and the encoder are proved by. -/

namespace Sys2Proof

/-- A bit of a packed word (R80). -/
theorem packWord_getLsbD (o r : Nibble) (a : Byte) (i : Nat) :
    (packWord o r a).getLsbD i =
      if i < 8 then a.getLsbD i else if i - 8 < 4 then r.getLsbD (i - 8) else o.getLsbD (i - 8 - 4) := by
  have h1 : (packWord o r a).getLsbD i = if i < 8 then a.getLsbD i else (o ++ r).getLsbD (i - 8) :=
    BitVec.getLsbD_append (x := o ++ r) (y := a) (i := i)
  have h2 : (o ++ r).getLsbD (i - 8) = if i - 8 < 4 then r.getLsbD (i - 8) else o.getLsbD (i - 8 - 4) :=
    BitVec.getLsbD_append (x := o) (y := r) (i := i - 8)
  rw [h1, h2]

@[simp] theorem opField_packWord (o r : Nibble) (a : Byte) : opField (packWord o r a) = o := by
  apply BitVec.eq_of_getLsbD_eq
  intro i hi
  have e : (opField (packWord o r a)).getLsbD i = (decide (i < 4) && (packWord o r a).getLsbD (12 + i)) := by
    simp [opField, BitVec.getLsbD_extractLsb']
  rw [e, packWord_getLsbD, if_neg (by omega), if_neg (by omega), show 12 + i - 8 - 4 = i by omega]
  simp [hi]

@[simp] theorem rowField_packWord (o r : Nibble) (a : Byte) : rowField (packWord o r a) = r := by
  apply BitVec.eq_of_getLsbD_eq
  intro i hi
  have e : (rowField (packWord o r a)).getLsbD i = (decide (i < 4) && (packWord o r a).getLsbD (8 + i)) := by
    simp [rowField, BitVec.getLsbD_extractLsb']
  rw [e, packWord_getLsbD, if_neg (by omega), if_pos (by omega), show 8 + i - 8 = i by omega]
  simp [hi]

@[simp] theorem argField_packWord (o r : Nibble) (a : Byte) : argField (packWord o r a) = a := by
  apply BitVec.eq_of_getLsbD_eq
  intro i hi
  have e : (argField (packWord o r a)).getLsbD i = (decide (i < 8) && (packWord o r a).getLsbD (0 + i)) := by
    simp [argField, BitVec.getLsbD_extractLsb']
  rw [e, packWord_getLsbD, if_pos (by omega), Nat.zero_add]
  simp [hi]

/-- A word is the packing of its fields (R80: no bit lies outside them). -/
@[simp] theorem packWord_fields (w : ReqWord) : packWord (opField w) (rowField w) (argField w) = w := by
  apply BitVec.eq_of_getLsbD_eq
  intro i hi
  rw [packWord_getLsbD]
  simp only [opField, rowField, argField, BitVec.getLsbD_extractLsb']
  split
  · simp_all
  · split
    · rw [show 8 + (i - 8) = i by omega]; simp_all
    · rw [show 12 + (i - 8 - 4) = i by omega, show decide (i - 8 - 4 < 4) = true by simp; omega]; simp

/-- The word of a request in terms of its fields. -/
theorem encode_eq (i : Instr) : encode i = packWord i.op i.row i.arg := by cases i <;> rfl

@[simp] theorem op_init (r : Nibble) (a : Byte) : (Instr.init r a).op = 0x1#4 := rfl
@[simp] theorem op_cmd (r : Nibble) (a : Byte) : (Instr.cmd r a).op = 0x2#4 := rfl
@[simp] theorem op_data (r : Nibble) (a : Byte) : (Instr.data r a).op = 0x3#4 := rfl
@[simp] theorem op_setcur (r : Nibble) (a : Byte) : (Instr.setcur r a).op = 0x4#4 := rfl
@[simp] theorem op_clear (r : Nibble) (a : Byte) : (Instr.clear r a).op = 0x5#4 := rfl

/-- All that the decoder can answer (R82, R84). -/
theorem decode_cases (w : ReqWord) :
    (opField w = 0x1#4 ∧ decode w = .ok (.init (rowField w) (argField w))) ∨
    (opField w = 0x2#4 ∧ decode w = .ok (.cmd (rowField w) (argField w))) ∨
    (opField w = 0x3#4 ∧ decode w = .ok (.data (rowField w) (argField w))) ∨
    (opField w = 0x4#4 ∧ decode w = .ok (.setcur (rowField w) (argField w))) ∨
    (opField w = 0x5#4 ∧ decode w = .ok (.clear (rowField w) (argField w))) ∨
    ((opField w = 0x0#4 ∨ 0x6#4 ≤ opField w) ∧ decode w = .error (.reservedOp (opField w))) := by
  have all : ∀ o : Nibble, o = 0x1#4 ∨ o = 0x2#4 ∨ o = 0x3#4 ∨ o = 0x4#4 ∨ o = 0x5#4 ∨
      (o = 0x0#4 ∨ 0x6#4 ≤ o) ∧ o ≠ 0x1#4 ∧ o ≠ 0x2#4 ∧ o ≠ 0x3#4 ∧ o ≠ 0x4#4 ∧ o ≠ 0x5#4 := by decide
  rcases all (opField w) with h | h | h | h | h | ⟨hr, h1, h2, h3, h4, h5⟩
  · exact .inl ⟨h, by simp [decode, h, opInit]⟩
  · exact .inr (.inl ⟨h, by simp [decode, h, opInit, opCmd]⟩)
  · exact .inr (.inr (.inl ⟨h, by simp [decode, h, opInit, opCmd, opData]⟩))
  · exact .inr (.inr (.inr (.inl ⟨h, by simp [decode, h, opInit, opCmd, opData, opSetcur]⟩)))
  · exact .inr (.inr (.inr (.inr (.inl ⟨h, by simp [decode, h, opInit, opCmd, opData, opSetcur, opClear]⟩))))
  · exact .inr (.inr (.inr (.inr (.inr ⟨hr, by
      simp [decode, opInit, opCmd, opData, opSetcur, opClear, h1, h2, h3, h4, h5]⟩))))

end Sys2Proof
end

