-- ==== Sys2Proof/Laws/Run.lean ====
section
/-! SUPPORT. Runs of several steps: a phase, an action and a whole action program, each as one lemma. -/

namespace Sys2Proof.Machine

@[simp] theorem run_zero (s : State) : run 0 s = .next s := rfl

theorem run_succ {s u : State} {k : Nat} (h : step s = .next u) : run (k + 1) s = run k u := by simp [run, h]

@[simp] theorem run_one (s : State) : run 1 s = step s := by
  cases h : step s <;> simp [run, h]

/-- The host's own run of the machine is the same. -/
theorem core_run_eq : ∀ (k : Nat) (s : State), Sys2Proof.core.run k s = run k s := by
  intro k
  induction k with
  | zero => intro s; rfl
  | succ k ih =>
    intro s
    have e := Host.Core.run.eq_2 Sys2Proof.core s k
    cases h : step s with
    | next v =>
      have h' : Sys2Proof.core.step s = .next v := h
      rw [h'] at e
      rw [run, h]
      exact e.trans (ih v)
    | fault r =>
      have h' : Sys2Proof.core.step s = .fault r := h
      rw [h'] at e
      rw [run, h]
      exact e
    | refused r =>
      have h' : Sys2Proof.core.step s = .refused r := h
      rw [h'] at e
      rw [run, h]
      exact e

/-- Runs compose. -/
theorem run_add {m : Nat} : ∀ {s u : State} {n : Nat}, run m s = .next u →
    run (m + n) s = run n u := by
  induction m with
  | zero =>
    intro s u n h
    obtain rfl : s = u := by simpa using h
    simp
  | succ m ih =>
    intro s u n h
    have e : m + 1 + n = m + n + 1 := by omega
    rw [e]
    cases hs : step s with
    | next v => rw [run_succ hs] at h ⊢; exact ih h
    | fault r => simp [run, hs] at h
    | refused r => simp [run, hs] at h

theorem quietFor_add {m n : Nat} : ∀ {h : List HostAct}, quietFor (m + n) h = true →
    quietFor m h = true ∧ quietFor n (hostAfterEdges m h) = true := by
  induction m with
  | zero => intro h hq; exact ⟨rfl, by simpa [hostAfterEdges] using hq⟩
  | succ m ih =>
    intro h hq
    rw [show m + 1 + n = (m + n) + 1 by omega] at hq
    simp only [quietFor, Bool.and_eq_true] at hq ⊢
    exact ⟨⟨hq.1, (ih hq.2).1⟩, (ih hq.2).2⟩

theorem quietFor_le {m n : Nat} {h : List HostAct} (hmn : m ≤ n) (hq : quietFor n h = true) : quietFor m h = true := by
  obtain ⟨k, rfl⟩ := Nat.exists_eq_add_of_le hmn
  exact (quietFor_add hq).1

theorem hostAfterEdges_add {m n : Nat} : ∀ {h : List HostAct},
    hostAfterEdges (m + n) h = hostAfterEdges n (hostAfterEdges m h) := by
  induction m with
  | zero => intro h; simp [hostAfterEdges]
  | succ m ih => intro h; rw [show m + 1 + n = (m + n) + 1 by omega]; exact ih

/-- A quiet host lets the run step be taken. -/
theorem step_run {s : State} {P : Program} {n : Nat} (hc : s.cfg.elaborates = true) (hf : s.fsm = .run)
    (hP : s.program = some P) (hq : quietFor (n + 1) s.host = true) : step s = .next (runEdge P (s.tick false)) := by
  simp only [quietFor, Bool.and_eq_true, Bool.not_eq_true'] at hq
  rw [step_of_legal hc, stepOnce_edge hq.1.1, edge_run hq.1.2 hf hP]

/-- The state `j` cycles later in the same phase. -/
def State.waited (s : State) (j : Nat) : State :=
  { s with cnt := s.cnt - j, t := s.t + j, host := hostAfterEdges j s.host }

/-- Inside a phase the count and the edge number move, and nothing else (R124). -/
theorem run_wait {P : Program} : ∀ {j : Nat} {s : State}, s.cfg.elaborates = true → s.fsm = .run →
    s.program = some P → j < s.cnt → quietFor j s.host = true → run j s = .next (s.waited j) := by
  intro j
  induction j with
  | zero => intro s _ _ _ _ _; simp [State.waited, hostAfterEdges]
  | succ j ih =>
    intro s hc hf hP hj hq
    have hs := step_run hc hf hP hq
    rw [runEdge_count (by simp; omega)] at hs
    rw [run_succ hs, ih (by simpa using hc) (by simpa using hf) (by simpa using hP) (by simp; omega)
      (by simp only [quietFor, Bool.and_eq_true] at hq; simpa using hq.2)]
    simp only [State.waited, State.countDown, State.tick, hostAfterEdges, Host.Outcome.next.injEq, State.mk.injEq,
      true_and, and_true]
    omega

/-- The state at the edge that ends the phase, before that edge's writes. -/
def State.phaseOver (s : State) : State :=
  { s with cnt := 1, t := s.t + s.cnt, host := hostAfterEdges s.cnt s.host }

@[simp] theorem State.phaseOver_cfg (s : State) : s.phaseOver.cfg = s.cfg := rfl
@[simp] theorem State.phaseOver_fsm (s : State) : s.phaseOver.fsm = s.fsm := rfl
@[simp] theorem State.phaseOver_opR (s : State) : s.phaseOver.opR = s.opR := rfl
@[simp] theorem State.phaseOver_rowR (s : State) : s.phaseOver.rowR = s.rowR := rfl
@[simp] theorem State.phaseOver_argR (s : State) : s.phaseOver.argR = s.argR := rfl
@[simp] theorem State.phaseOver_ap (s : State) : s.phaseOver.ap = s.ap := rfl
@[simp] theorem State.phaseOver_ph (s : State) : s.phaseOver.ph = s.ph := rfl
@[simp] theorem State.phaseOver_dbR (s : State) : s.phaseOver.dbR = s.dbR := rfl
@[simp] theorem State.phaseOver_rsR (s : State) : s.phaseOver.rsR = s.rsR := rfl
@[simp] theorem State.phaseOver_eR (s : State) : s.phaseOver.eR = s.eR := rfl
@[simp] theorem State.phaseOver_samples (s : State) : s.phaseOver.samples = s.samples := rfl
@[simp] theorem State.phaseOver_mon (s : State) : s.phaseOver.mon = s.mon := rfl
@[simp] theorem State.phaseOver_refused (s : State) : s.phaseOver.refused = s.refused := rfl
@[simp] theorem State.phaseOver_freeCtr (s : State) : s.phaseOver.freeCtr = s.freeCtr := rfl
@[simp] theorem State.phaseOver_cnt (s : State) : s.phaseOver.cnt = 1 := rfl
@[simp] theorem State.phaseOver_t (s : State) : s.phaseOver.t = s.t + s.cnt := rfl
@[simp] theorem State.phaseOver_host (s : State) : s.phaseOver.host = hostAfterEdges s.cnt s.host := rfl
@[simp] theorem State.phaseOver_program (s : State) : s.phaseOver.program = s.program := rfl

/-- A phase lasts its count (R124). -/
theorem run_phase {P : Program} {s : State} (hc : s.cfg.elaborates = true) (hf : s.fsm = .run)
    (hP : s.program = some P) (h1 : 1 ≤ s.cnt) (hq : quietFor s.cnt s.host = true) :
    run s.cnt s = .next (endPhase P s.phaseOver) := by
  obtain ⟨c, hcnt⟩ : ∃ c, s.cnt = c + 1 := ⟨s.cnt - 1, by omega⟩
  rw [hcnt] at hq
  obtain ⟨q1, q2⟩ := quietFor_add hq
  have hw := run_wait hc hf hP (by omega : c < s.cnt) q1
  rw [hcnt, run_add hw, run_one, step_run (s := s.waited c) hc hf hP q2, runEdge_end (by simp [State.waited]; omega)]
  have e : (s.waited c).tick false = s.phaseOver := by
    simp [State.waited, State.phaseOver, State.tick, hcnt, hostAfterEdges_add, hostAfterEdges]
    omega
  rw [e]

/-- The monitor over the samples of an action (R183). -/
def monAction (op : Nibble) (ap : BitVec 5) (m : Monitor) : Action → Monitor
  | .driveLow   => m
  | .wait _     => m
  | .nibble _ _ => m.sample op ap

/-- The phase in which an action ends (R124). -/
def lastPhase : Action → Phase
  | .driveLow   => .wait
  | .wait _     => .wait
  | .nibble _ _ => .tail

/-- The state at the edge that ends an action entered in `s`, before that edge's writes. -/
def State.actionOver (s : State) (a : Action) : State :=
  { s with ph := lastPhase a, cnt := 1, dbR := (linesAfter s.lines a).db, rsR := (linesAfter s.lines a).rs,
           eR := (linesAfter s.lines a).e, samples := s.samples ++ actionSamples s.cfg s.t a,
           mon := monAction s.opR s.ap s.mon a, t := s.t + actionDur s.cfg a,
           host := hostAfterEdges (actionDur s.cfg a) s.host }

@[simp] theorem State.actionOver_lines (s : State) (a : Action) : (s.actionOver a).lines = linesAfter s.lines a := rfl

@[simp] theorem State.actionOver_program (s : State) (a : Action) : (s.actionOver a).program = s.program := rfl

theorem enter_driveLow_over (s : State) : (enter .driveLow s).phaseOver = s.actionOver .driveLow := by
  simp [State.actionOver, State.phaseOver, State.startPhase, State.driveLines, lastPhase, linesAfter, actionSamples,
    monAction, actionDur, Lines.low]

theorem enter_wait_over (n : Nat) (s : State) : (enter (.wait n) s).phaseOver = s.actionOver (.wait n) := by
  simp [State.actionOver, State.phaseOver, State.startPhase, lastPhase, linesAfter, State.lines, actionSamples,
    monAction, actionDur]

/-- An action lasts its duration (R118), with its lines in every cycle (R112 to R115) and its sample (R116). -/
theorem run_action {P : Program} {s : State} (a : Action) (hc : s.cfg.elaborates = true) (hf : s.fsm = .run)
    (hP : s.program = some P) (h1 : 1 ≤ actionDur s.cfg a) (hq : quietFor (actionDur s.cfg a) s.host = true) :
    (∀ j < actionDur s.cfg a, ∃ u, run j (enter a s) = .next u ∧ u.fsm = .run ∧
      u.lines = actionLines s.cfg s.lines j a) ∧
    run (actionDur s.cfg a) (enter a s) = .next (endAction P (s.actionOver a)) := by
  have hf' : (enter a s).fsm = .run := by simpa using hf
  have hc' : (enter a s).cfg.elaborates = true := by simpa using hc
  have hP' : (enter a s).program = some P := by simpa using hP
  cases a with
  | driveLow =>
    refine ⟨?_, ?_⟩
    · intro j hj
      obtain rfl : j = 0 := by simpa [actionDur] using hj
      exact ⟨_, rfl, hf', rfl⟩
    · have h := run_phase hc' hf' hP' (by simp) (by simpa [actionDur] using hq)
      rw [endPhase_wait rfl, enter_driveLow_over, show (enter .driveLow s).cnt = 1 from rfl] at h
      exact h
  | wait n =>
    refine ⟨?_, ?_⟩
    · intro j hj
      simp only [actionDur] at hj hq
      exact ⟨_, run_wait hc' hf' hP' (by simpa using hj) (by simpa using quietFor_le hj.le hq), hf', rfl⟩
    · have h := run_phase hc' hf' hP' (by simpa [actionDur] using h1) (by simpa [actionDur] using hq)
      rw [endPhase_wait rfl, enter_wait_over, show (enter (.wait n) s).cnt = n from rfl] at h
      exact h
  | nibble v m =>
    have hL := eLow_pos hc
    have hH := eHigh_pos hc
    have hd : actionDur s.cfg (.nibble v m) = s.cfg.eLow + (s.cfg.eHigh + s.cfg.eLow) := by
      simp [actionDur, nibbleCycles]; omega
    rw [hd] at hq ⊢
    obtain ⟨q1, q23⟩ := quietFor_add hq
    obtain ⟨q2, q3⟩ := quietFor_add q23
    -- SETUP
    have r1 := run_phase hc' hf' hP' (by simpa using hL) (by simpa using q1)
    rw [endPhase_setup (by rfl), show (enter (.nibble v m) s).cnt = s.cfg.eLow from rfl] at r1
    generalize hs1 : ((enter (.nibble v m) s).phaseOver.setE true).startPhase .high
      (enter (.nibble v m) s).phaseOver.cfg.eHigh = s1 at r1
    -- HIGH
    have c1 : s1.cfg = s.cfg := by simp [← hs1]
    have f1 : s1.fsm = .run := by simp [← hs1, hf]
    have p1 : s1.program = some P := by simp [← hs1, hP]
    have n1 : s1.cnt = s.cfg.eHigh := by simp [← hs1]
    have o1 : s1.host = hostAfterEdges s.cfg.eLow s.host := by simp [← hs1]
    have r2 := run_phase (by rw [c1]; exact hc) f1 p1 (by omega) (by rw [n1, o1]; exact q2)
    rw [endPhase_high (by simp [← hs1])] at r2
    generalize hs2 : fallE s1.phaseOver = s2 at r2
    rw [n1] at r2
    -- TAIL
    have c2 : s2.cfg = s.cfg := by simp [← hs2, c1]
    have f2 : s2.fsm = .run := by simp [← hs2, f1]
    have p2 : s2.program = some P := by simp [← hs2, p1]
    have n2 : s2.cnt = s.cfg.eLow := by simp [← hs2, c1]
    have o2 : s2.host = hostAfterEdges s.cfg.eHigh (hostAfterEdges s.cfg.eLow s.host) := by simp [← hs2, n1, o1]
    have r3 := run_phase (by rw [c2]; exact hc) f2 p2 (by omega) (by rw [n2, o2]; exact q3)
    rw [endPhase_tail (by simp [← hs2]), n2] at r3
    refine ⟨?_, ?_⟩
    · intro j hj
      rcases Nat.lt_or_ge j s.cfg.eLow with hj1 | hj1
      · have q : quietFor j s.host = true := quietFor_le hj1.le q1
        refine ⟨_, run_wait hc' hf' hP' (by simpa using hj1) (by simpa using q), hf', ?_⟩
        simp [State.waited, State.lines, actionLines]
        omega
      · obtain ⟨i, rfl⟩ : ∃ i, j = s.cfg.eLow + i := ⟨j - s.cfg.eLow, by omega⟩
        rw [run_add r1]
        rcases Nat.lt_or_ge i s.cfg.eHigh with hi | hi
        · have q : quietFor i s1.host = true := by rw [o1]; exact quietFor_le hi.le q2
          refine ⟨_, run_wait (by rw [c1]; exact hc) f1 p1 (by omega) q, f1, ?_⟩
          rw [← hs1]
          simp [State.waited, State.lines, actionLines, State.phaseOver, hi]
        · obtain ⟨k, rfl⟩ : ∃ k, i = s.cfg.eHigh + k := ⟨i - s.cfg.eHigh, by omega⟩
          rw [run_add r2]
          have q : quietFor k s2.host = true := by rw [o2]; exact quietFor_le (by omega) q3
          refine ⟨_, run_wait (by rw [c2]; exact hc) f2 p2 (by omega) q, f2, ?_⟩
          rw [← hs2, ← hs1]
          simp [State.waited, State.lines, actionLines, State.phaseOver, fallE]
    · rw [run_add r1, run_add r2, r3]
      have e : s2.phaseOver = s.actionOver (.nibble v m) := by
        rw [← hs2, ← hs1]
        simp only [State.phaseOver, fallE, State.actionOver, lastPhase, linesAfter, actionSamples, monAction, hd,
          State.logSample, State.withMon, State.setE, State.startPhase, State.driveLines, enter, hostAfterEdges_add,
          Nat.add_assoc]
      rw [e]

/-- The monitor over the samples of a program from action `k` on (R183). -/
def monProgram (op : Nibble) : Nat → Program → Monitor → Monitor
  | _, [], m     => m
  | k, a :: P, m => monProgram op (k + 1) P (monAction op (BitVec.ofNat 5 k) m a)

/-- A program runs from any of its actions to its end: its duration (R127), its lines in every cycle, its samples (R128),
and what it leaves. -/
theorem run_program {P : Program} : ∀ (Q : Program) (a : Action) {s : State}, s.cfg.elaborates = true → s.fsm = .run →
    s.program = some P → P.length ≤ 19 → P.drop s.ap.toNat = a :: Q → (∀ b ∈ P, 1 ≤ actionDur s.cfg b) →
    quietFor (programDur s.cfg (a :: Q)) s.host = true →
    (∀ j < programDur s.cfg (a :: Q), ∃ u, run j (enter a s) = .next u ∧ u.fsm = .run ∧
      u.lines = programLines s.cfg s.lines (a :: Q) j) ∧
    ∃ u, run (programDur s.cfg (a :: Q)) (enter a s) = .next u ∧ u.fsm = .idle ∧ u.cfg = s.cfg ∧
      u.opR = s.opR ∧ u.rowR = s.rowR ∧ u.argR = s.argR ∧ u.lines = linesAfterProgram s.lines (a :: Q) ∧
      u.samples = s.samples ++ programSamples s.cfg s.t (a :: Q) ∧ u.t = s.t + programDur s.cfg (a :: Q) ∧
      u.host = hostAfterEdges (programDur s.cfg (a :: Q)) s.host ∧ u.refused = s.refused ∧ u.freeCtr = s.freeCtr ∧
      u.mon = monProgram s.opR s.ap.toNat (a :: Q) s.mon := by
  intro Q
  induction Q with
  | nil =>
    intro a s hc hf hP hlen hdrop hpos hq
    simp only [programDur, Nat.add_zero] at hq ⊢
    have ha : a ∈ P := List.mem_of_mem_drop (i := s.ap.toNat) (by simp [hdrop])
    obtain ⟨A, B⟩ := run_action a hc hf hP (hpos a ha) hq
    refine ⟨?_, ?_⟩
    · intro j hj
      obtain ⟨u, hu⟩ := A j hj
      exact ⟨u, hu.1, hu.2.1, by rw [hu.2.2]; simp [programLines, hj]⟩
    · have hnone : P[(s.actionOver a).ap.toNat + 1]? = none := by
        have : P.drop (s.ap.toNat + 1) = [] := by rw [← List.drop_drop, hdrop]; rfl
        have := List.drop_eq_nil_iff.1 this
        exact List.getElem?_eq_none (by simpa [State.actionOver] using this)
      rw [endAction_last hnone] at B
      refine ⟨_, B, rfl, rfl, rfl, rfl, rfl, rfl, ?_, rfl, rfl, rfl, rfl, ?_⟩
      · simp [State.actionOver, programSamples]
      · simp [State.actionOver, monProgram]
  | cons b Q ih =>
    intro a s hc hf hP hlen hdrop hpos hq
    rw [programDur] at hq
    obtain ⟨q1, q2⟩ := quietFor_add hq
    have ha : a ∈ P := List.mem_of_mem_drop (i := s.ap.toNat) (by simp [hdrop])
    obtain ⟨A, B⟩ := run_action a hc hf hP (hpos a ha) q1
    have hdrop' : P.drop (s.ap.toNat + 1) = b :: Q := by rw [← List.drop_drop, hdrop]; rfl
    have hb : P[s.ap.toNat + 1]? = some b := by
      rw [← List.head?_drop, hdrop']; rfl
    have hap : s.ap.toNat + 1 < P.length := by
      by_contra hge
      rw [List.getElem?_eq_none (by omega)] at hb
      cases hb
    rw [endAction_next (a := b) (by simpa [State.actionOver] using hb)] at B
    have apn : (s.ap + 1#5).toNat = s.ap.toNat + 1 := by
      rw [BitVec.toNat_add]; simp; omega
    obtain ⟨A', B'⟩ := ih b (s := (s.actionOver a).advance) hc hf hP hlen
      (by simp [State.actionOver, apn, hdrop']) hpos q2
    refine ⟨?_, ?_⟩
    · intro j hj
      rcases Nat.lt_or_ge j (actionDur s.cfg a) with h | h
      · obtain ⟨u, hu⟩ := A j h
        exact ⟨u, hu.1, hu.2.1, by rw [hu.2.2]; simp [programLines, h]⟩
      · obtain ⟨i, rfl⟩ : ∃ i, j = actionDur s.cfg a + i := ⟨j - actionDur s.cfg a, by omega⟩
        rw [run_add B]
        obtain ⟨u, hu⟩ := A' i (by rw [programDur] at hj; simpa [State.actionOver] using by omega)
        refine ⟨u, hu.1, hu.2.1, ?_⟩
        have e : programLines s.cfg s.lines (a :: b :: Q) (actionDur s.cfg a + i) =
            programLines s.cfg (linesAfter s.lines a) (b :: Q) i := by
          rw [programLines, if_neg (by omega), Nat.add_sub_cancel_left]
        rw [hu.2.2, e]
        rfl
    · obtain ⟨u, hu, k⟩ := B'
      refine ⟨u, ?_, k.1, k.2.1, k.2.2.1, k.2.2.2.1, k.2.2.2.2.1, k.2.2.2.2.2.1, ?_, ?_, ?_, ?_, ?_, ?_⟩
      · rw [programDur, run_add B]; exact hu
      · rw [k.2.2.2.2.2.2.1]; simp [State.actionOver, programSamples]
      · rw [k.2.2.2.2.2.2.2.1]; simp [State.actionOver, programDur]; omega
      · rw [k.2.2.2.2.2.2.2.2.1]; simp [State.actionOver, programDur, hostAfterEdges_add]
      · rw [k.2.2.2.2.2.2.2.2.2.1]; rfl
      · rw [k.2.2.2.2.2.2.2.2.2.2.1]; rfl
      · rw [k.2.2.2.2.2.2.2.2.2.2.2]; simp [State.actionOver, monProgram, apn]

end Sys2Proof.Machine
end

