-- ==== Sys2Proof/Laws/Timing.lean ====
section
/-! SUPPORT. Small lemmas about the duration, samples and lines of a program (spec/40_pin_interface.md R118, R127, R128). -/

namespace Sys2Proof.Machine

/-- The two spellings of a byte's nibbles agree (R63). -/
theorem highNibble_eq (b : Byte) : highNibble b = b.extractLsb' 4 4 := by
  apply BitVec.eq_of_toNat_eq
  simp [highNibble, BitVec.extractLsb'_toNat, Nat.shiftRight_eq_div_pow]
  rw [show (15 : Nat) = 2 ^ 4 - 1 by rfl, Nat.and_two_pow_sub_one_eq_mod]
  omega

theorem lowNibble_eq (b : Byte) : lowNibble b = b.extractLsb' 0 4 := by
  apply BitVec.eq_of_toNat_eq
  simp [lowNibble, BitVec.extractLsb'_toNat]
  rw [show (15 : Nat) = 2 ^ 4 - 1 by rfl, Nat.and_two_pow_sub_one_eq_mod]
  omega

/-- At its end a program has left its last levels. -/
theorem programLines_end (cfg : Config) : ∀ (P : Program) (was : Lines),
    programLines cfg was P (programDur cfg P) = linesAfterProgram was P := by
  intro P
  induction P with
  | nil => intro was; rfl
  | cons a P ih =>
    intro was
    rw [programLines, programDur, if_neg (by omega), Nat.add_sub_cancel_left, ih]
    rfl

/-- The RS level an action can bring. -/
def Action.keepsRs (m : Level) : Action → Prop
  | .driveLow   => m = false
  | .wait _     => True
  | .nibble _ k => k = m

/-- RS stays at the level that every action of the program keeps (R121). -/
theorem programLines_rs (cfg : Config) {m : Level} : ∀ (P : Program) (was : Lines) (j : Nat), was.rs = m →
    (∀ a ∈ P, Action.keepsRs m a) → (programLines cfg was P j).rs = m := by
  intro P
  induction P with
  | nil => intro was j h _; exact h
  | cons a P ih =>
    intro was j h ha
    have h1 := ha a (by simp)
    rw [programLines]
    split
    · cases a with
      | driveLow => exact h1.symm
      | wait n => exact h
      | nibble v k => exact h1
    · refine ih _ _ ?_ fun b hb => ha b (by simp [hb])
      cases a with
      | driveLow => exact h1.symm
      | wait n => exact h
      | nibble v k => exact h1

/-- Moving a program's start moves its samples. -/
theorem programSamples_start (cfg : Config) : ∀ (P : Program) (k n : Nat),
    programSamples cfg (k + n) P = (programSamples cfg n P).map fun x => { x with t := k + x.t } := by
  intro P
  induction P with
  | nil => intro k n; rfl
  | cons a P ih =>
    intro k n
    rw [programSamples, programSamples, List.map_append, ← ih, Nat.add_assoc]
    congr 1
    cases a <;> simp [actionSamples, Nat.add_assoc]

end Sys2Proof.Machine
end

