-- ==== Sys2Proof/Laws/Observe.lean ====
section
/-! SUPPORT. Runs to their first end and their observation, one lemma for each way a run goes on (R213). -/

namespace Sys2Proof.Machine

/-- A run in its end state is over. -/
theorem statesToEnd_end {s : State} (h : s.EndOfRun) (k : Nat) : statesToEnd k s = some [s] := by
  cases k <;> rw [statesToEnd, if_pos h]

/-- A run that is not over goes on with the step. -/
theorem statesToEnd_step {s u : State} (h : ¬ s.EndOfRun) (hs : step s = .next u) (k : Nat) :
    statesToEnd (k + 1) s = (statesToEnd k u).map (s :: ·) := by
  rw [statesToEnd, if_neg h, hs]

/-- What a run to its end can be: its end at once, or a state that is no end and the run from its step. -/
theorem statesToEnd_cases {k : Nat} {s : State} {ss : List State} (h : statesToEnd k s = some ss) :
    (s.EndOfRun ∧ ss = [s]) ∨
    (¬ s.EndOfRun ∧ ∃ j u us, k = j + 1 ∧ step s = .next u ∧ statesToEnd j u = some us ∧ ss = s :: us) := by
  by_cases he : s.EndOfRun
  · rw [statesToEnd_end he] at h
    exact .inl ⟨he, by simpa using h.symm⟩
  · refine .inr ⟨he, ?_⟩
    cases k with
    | zero => rw [statesToEnd, if_neg he] at h; cases h
    | succ j =>
      rw [statesToEnd, if_neg he] at h
      cases hs : step s with
      | next u =>
        rw [hs] at h
        obtain ⟨us, hu, rfl⟩ := Option.map_eq_some_iff.1 h
        exact ⟨j, u, us, rfl, rfl, hu, rfl⟩
      | fault r => rw [hs] at h; cases h
      | refused r => rw [hs] at h; cases h

@[simp] theorem State.observe_levels (s : State) (l : List Lines) : (s.observe l).levels = l := rfl
@[simp] theorem State.observe_samples (s : State) (l : List Lines) : (s.observe l).samples = s.samples := rfl
@[simp] theorem State.observe_mphase (s : State) (l : List Lines) : (s.observe l).mphase = s.mon.mphase := rfl
@[simp] theorem State.observe_viol (s : State) (l : List Lines) : (s.observe l).viol = s.mon.viol := rfl
@[simp] theorem State.observe_refused (s : State) (l : List Lines) : (s.observe l).refused = s.refused := rfl

@[simp] theorem cycleLevels_nil : cycleLevels [] = [] := rfl

/-- A state whose next step is an edge gives its cycle's levels. -/
theorem cycleLevels_edge {s : State} (h : eventNext s.host = false) (ss : List State) :
    cycleLevels (s :: ss) = s.lines :: cycleLevels ss := by simp [cycleLevels, h]

/-- A state before an event gives none. -/
theorem cycleLevels_event {s : State} (h : eventNext s.host = true) (ss : List State) :
    cycleLevels (s :: ss) = cycleLevels ss := by simp [cycleLevels, h]

theorem cycleLevels_append (ss us : List State) : cycleLevels (ss ++ us) = cycleLevels ss ++ cycleLevels us := by
  simp [cycleLevels]

/-- A run over `n` cycles of known levels, none an end, and then on from `u`. -/
theorem statesToEnd_run {f : Nat → Lines} : ∀ {n k : Nat} {s u : State} {ss : List State},
    (∀ j < n, ∃ v, run j s = .next v ∧ ¬ v.EndOfRun ∧ eventNext v.host = false ∧ v.lines = f j) →
    run n s = .next u → statesToEnd k u = some ss →
    ∃ pre, statesToEnd (n + k) s = some (pre ++ ss) ∧ cycleLevels pre = (List.range n).map f := by
  intro n
  induction n generalizing f with
  | zero =>
    intro k s u ss _ hu hs
    obtain rfl : s = u := by simpa using hu
    exact ⟨[], by simpa using hs, rfl⟩
  | succ n ih =>
    intro k s u ss hj hu hs
    obtain ⟨v, hv, hne, hev, hl⟩ := hj 0 (by omega)
    obtain rfl : s = v := by simpa using hv
    cases hst : step s with
    | fault r => simp [run, hst] at hu
    | refused r => simp [run, hst] at hu
    | next w =>
      rw [run_succ hst] at hu
      obtain ⟨pre, hp, hc⟩ := ih (f := fun j => f (j + 1)) (s := w) (fun j hjn => by
        have h := hj (j + 1) (by omega)
        rwa [run_succ hst] at h) hu hs
      refine ⟨s :: pre, ?_, ?_⟩
      · rw [show n + 1 + k = (n + k) + 1 by omega, statesToEnd_step hne hst, hp]
        rfl
      · rw [cycleLevels_edge hev, hc, hl, List.range_succ_eq_map]
        simp

/-- A host that has no event among its acts. -/
def noEvents (h : List HostAct) : Bool := h.all fun a => !eventNext [a]

theorem eventNext_of_noEvents {h : List HostAct} (hn : noEvents h = true) : eventNext h = false := by
  cases h with
  | nil => rfl
  | cons a r =>
    rw [noEvents, List.all_cons, Bool.and_eq_true] at hn
    cases a <;> simp_all [eventNext]

theorem noEvents_offering (ws : List ReqWord) : noEvents (hostOffering ws) = true := by
  simp [noEvents, hostOffering, eventNext]

theorem noEvents_afterEdge {h : List HostAct} (a : Bool) (hn : noEvents h = true) :
    noEvents (hostAfterEdge a h) = true := by
  unfold hostAfterEdge
  split <;> (try split) <;> simp_all [noEvents, eventNext]

/-- An acceptance leaves the edge number and the host. -/
theorem exec_t_host {i : Instr} {s u : State} (hx : exec i s = .next u) : u.t = s.t ∧ u.host = s.host := by
  rw [exec_eq_accept] at hx
  obtain ⟨a, P, hp⟩ := program_cons s.cfg i
  rw [hp, accept_cons] at hx
  cases hx
  simp

/-- An event of the host keeps the edge number and the lines; an edge raises the number by one (R32). -/
theorem step_edge_number {s u : State} (h : step s = .next u) :
    (eventNext s.host = true → u.t = s.t ∧ u.lines = s.lines) ∧ (eventNext s.host = false → u.t = s.t + 1) := by
  obtain ⟨hc, ⟨r, hh, rfl⟩ | ⟨r, hh, rfl⟩ | ⟨he, _, rfl⟩ | ⟨P, he, _, _, _, rfl⟩ | ⟨i, he, _, _, _, _, hx⟩ |
    ⟨_, he, _, _, _, _, rfl⟩ | ⟨he, _, _, _, rfl⟩⟩ := step_cases h
  · rw [hh]; exact ⟨fun _ => ⟨rfl, rfl⟩, by simp [eventNext]⟩
  · rw [hh]; exact ⟨fun _ => ⟨rfl, rfl⟩, by simp [eventNext]⟩
  · exact ⟨by simp [he], fun _ => (resetEdge_spec (s.tick false)).2.2.2.2.1⟩
  · exact ⟨by simp [he], fun _ => (runEdge_frame P (s.tick false)).2.2.2.2.1⟩
  · exact ⟨by simp [he], fun _ => (exec_t_host hx).1⟩
  · exact ⟨by simp [he], fun _ => rfl⟩
  · exact ⟨by simp [he], fun _ => rfl⟩

/-- A host without events stays without them. -/
theorem step_noEvents {s u : State} (hn : noEvents s.host = true) (h : step s = .next u) : noEvents u.host = true := by
  have he := eventNext_of_noEvents hn
  obtain ⟨hc, ⟨r, hh, rfl⟩ | ⟨r, hh, rfl⟩ | ⟨_, _, rfl⟩ | ⟨P, _, _, _, _, rfl⟩ | ⟨i, _, _, _, _, _, hx⟩ |
    ⟨_, _, _, _, _, _, rfl⟩ | ⟨_, _, _, _, rfl⟩⟩ := step_cases h
  · rw [hh] at he; cases he
  · rw [hh] at he; cases he
  · rw [(resetEdge_spec (s.tick false)).2.2.2.2.2.1]; exact noEvents_afterEdge _ hn
  · rw [(runEdge_frame P (s.tick false)).2.2.2.2.2.2.2.1]; exact noEvents_afterEdge _ hn
  · rw [(exec_t_host hx).2]; exact noEvents_afterEdge _ hn
  · exact noEvents_afterEdge _ hn
  · exact noEvents_afterEdge _ hn

theorem run_noEvents : ∀ {j : Nat} {s u : State}, noEvents s.host = true → run j s = .next u →
    noEvents u.host = true := by
  intro j
  induction j with
  | zero =>
    intro s u hn h
    obtain rfl : s = u := by simpa using h
    exact hn
  | succ j ih =>
    intro s u hn h
    cases hs : step s with
    | next w => rw [run_succ hs] at h; exact ih (step_noEvents hn hs) h
    | fault r => simp [run, hs] at h
    | refused r => simp [run, hs] at h

end Sys2Proof.Machine
end

