-- ==== Sys2Proof/Laws/PerInstr.lean ====
section
/-! SUPPORT. The statements made for every request of the opcode table, one lemma per constructor of Instr. -/

/-- The "match" value of a request's row in spec/opcode_table.json, whose "mask" is 0xF000 throughout. -/
def Sys2Proof.Laws.TableRow.matchValue : Sys2Proof.Instr → Sys2Proof.ReqWord
  | .init _ _   => 0x1000#16
  | .cmd _ _    => 0x2000#16
  | .data _ _   => 0x3000#16
  | .setcur _ _ => 0x4000#16
  | .clear _ _  => 0x5000#16

/-- The encoder's word carries its row's match value under the row's mask (R82). -/
def Sys2Proof.Laws.TableRow.Statement (i : Sys2Proof.Instr) : Prop :=
  Sys2Proof.encode i &&& 0xF000#16 = Sys2Proof.Laws.TableRow.matchValue i

/-- Under the mask only the OP field of a packed word is left. -/
theorem Sys2Proof.packWord_mask (o r : Sys2Proof.Nibble) (a : Sys2Proof.Byte) :
    Sys2Proof.packWord o r a &&& 0xF000#16 = Sys2Proof.packWord o 0#4 0#8 := by
  apply BitVec.eq_of_getLsbD_eq
  intro i hi
  rw [BitVec.getLsbD_and, Sys2Proof.packWord_getLsbD, Sys2Proof.packWord_getLsbD]
  have hm : ∀ j : Nat, j < 16 → (0xF000#16).getLsbD j = decide (12 ≤ j) := by decide
  rw [hm i hi]
  split
  · simp; omega
  · split
    · simp; omega
    · simp; omega

theorem Sys2Proof.Laws.TableRow.init (row : Sys2Proof.Nibble) (arg : Sys2Proof.Byte) :
    Sys2Proof.Laws.TableRow.Statement (.init row arg) := Sys2Proof.packWord_mask _ row arg

theorem Sys2Proof.Laws.TableRow.cmd (row : Sys2Proof.Nibble) (arg : Sys2Proof.Byte) :
    Sys2Proof.Laws.TableRow.Statement (.cmd row arg) := Sys2Proof.packWord_mask _ row arg

theorem Sys2Proof.Laws.TableRow.data (row : Sys2Proof.Nibble) (arg : Sys2Proof.Byte) :
    Sys2Proof.Laws.TableRow.Statement (.data row arg) := Sys2Proof.packWord_mask _ row arg

theorem Sys2Proof.Laws.TableRow.setcur (row : Sys2Proof.Nibble) (arg : Sys2Proof.Byte) :
    Sys2Proof.Laws.TableRow.Statement (.setcur row arg) := Sys2Proof.packWord_mask _ row arg

theorem Sys2Proof.Laws.TableRow.clear (row : Sys2Proof.Nibble) (arg : Sys2Proof.Byte) :
    Sys2Proof.Laws.TableRow.Statement (.clear row arg) := Sys2Proof.packWord_mask _ row arg
end

