-- ==== Sys2Proof/Tests/Slice0.lean ====
section
/-! SUPPORT. The model's own tests. Expected results come from spec/95_test_vectors.md or from the rules named in each
comment. First the ill-formed terms, then words written out by hand, then single edges and short runs of the spec's
vectors, then for each statement of Obligations.lean a state that meets its hypotheses (the `wit_` theorems). -/

namespace Sys2Proof.Tests

open Sys2Proof Sys2Proof.Machine

/-! ### What is refused as ill-formed -/

/-- R95: an operand that does not fit its field. -/
theorem test_illformed_lines :
    AsmLine.wellFormed (.cmd 256) = false ∧ AsmLine.wellFormed (.data 256) = false ∧
    AsmLine.wellFormed (.setcur 16 0) = false ∧ AsmLine.wellFormed (.setcur 0 256) = false ∧
    AsmLine.wellFormed (.word 65536) = false := by decide

/-- R95: ignored fields that an assembler does not write. -/
theorem test_not_canonical :
    Instr.canonical (.init 1#4 0#8) = false ∧ Instr.canonical (.init 0#4 1#8) = false ∧
    Instr.canonical (.cmd 0xA#4 1#8) = false ∧ Instr.canonical (.data 1#4 0x41#8) = false ∧
    Instr.canonical (.clear 0xA#4 0#8) = false ∧ Instr.canonical (.clear 0#4 0xBC#8) = false := by decide

/-- R113: no zero wait, and none that `cnt` cannot hold; R26, R125: no empty or overlong program, none without its WAIT. -/
theorem test_illformed_programs :
    Action.wellFormed Config.reference (.wait 0) = false ∧ Action.wellFormed Config.reference (.wait 131072) = false ∧
    Program.wellFormed Config.reference [] = false ∧
    Program.wellFormed Config.reference (List.replicate 20 (.wait 1)) = false ∧
    Program.wellFormed Config.reference [.wait 0, .wait 1] = false ∧
    Program.wellFormed Config.reference [.wait 1, .driveLow] = false := by decide

/-- U9: an elaboration with a zero wait, and one whose `cnt` is too narrow (100 000 needs 17 bits, R27). -/
theorem test_illegal_elaborations :
    { Config.reference with tByteGap := 0 }.elaborates = false ∧ { Config.reference with eLow := 0 }.elaborates = false ∧
    { Config.reference with cntW := 16 }.elaborates = false ∧ Config.reference.elaborates = true := by decide

/-- R6, R7: the reference values meet every constraint of the table. -/
theorem test_reference_is_legal : Config.reference.legal = true := by decide

/-- U7: a clock ten times faster breaks the 450 ns constraint, which no step rule reads. -/
theorem test_fast_clock_breaks_timing :
    { Config.reference with clkHz := 10000000 }.meetsControllerTiming = false ∧
    { Config.reference with clkHz := 10000000 }.elaborates = true := by decide

/-! ### Words written out from R80, R82 and R95 -/

theorem test_decode_init : decode 0b0001000000000000#16 = .ok (.init 0x0#4 0x00#8) := by rfl
theorem test_decode_init_ignored : decode 0b0001111111111111#16 = .ok (.init 0xF#4 0xFF#8) := by rfl
theorem test_decode_cmd : decode 0b0010000000101000#16 = .ok (.cmd 0x0#4 0x28#8) := by rfl
theorem test_decode_data : decode 0b0011000001000001#16 = .ok (.data 0x0#4 0x41#8) := by rfl
theorem test_decode_setcur : decode 0b0100000100000101#16 = .ok (.setcur 0x1#4 0x05#8) := by rfl
theorem test_decode_clear : decode 0b0101101010111100#16 = .ok (.clear 0xA#4 0xBC#8) := by rfl
theorem test_decode_reserved :
    decode 0x0000#16 = .error (.reservedOp 0x0#4) ∧ decode 0x6000#16 = .error (.reservedOp 0x6#4) ∧
    decode 0xF123#16 = .error (.reservedOp 0xF#4) := ⟨rfl, rfl, rfl⟩

/-- The encoder against the words of R95. -/
theorem test_encode :
    encode (.init 0x0#4 0x00#8) = 0x1000#16 ∧ encode (.cmd 0x0#4 0x28#8) = 0x2028#16 ∧
    encode (.data 0x0#4 0x41#8) = 0x3041#16 ∧ encode (.setcur 0x1#4 0x05#8) = 0x4105#16 ∧
    encode (.clear 0x0#4 0x00#8) = 0x5000#16 := by decide

/-! ### Operands -/

/-- Vectors SC-1, SC-4, SC-6, SC-7, SC-8, SC-9, SC-10. -/
theorem test_setcur_bytes :
    setcurByte 0#4 0#8 = 0x80#8 ∧ setcurByte 1#4 5#8 = 0xC5#8 ∧ setcurByte 0#4 0x45#8 = 0xC5#8 ∧
    setcurByte 0#4 0x80#8 = 0x80#8 ∧ setcurByte 3#4 0x10#8 = 0xD0#8 ∧ setcurByte 2#4 15#8 = 0xCF#8 ∧
    setcurByte 0#4 16#8 = 0x90#8 := by decide

/-- Vector DA-4. -/
theorem test_nibbles : highNibble 0xA5#8 = 0xA#4 ∧ lowNibble 0xA5#8 = 0x5#4 := by decide

/-! ### Text (R95 to R97; vectors PS-1 to PS-5) -/

theorem test_text_setcur :
    assembleText ['s', 'e', 't', 'C', 'U', 'R', ' ', '1', ',', ' ', '0', 'x', '0', '5'] = some [0x4105#16] := by decide
theorem test_text_data_char : assembleText ['D', 'A', 'T', 'A', ' ', '\'', 'A', '\''] = some [0x3041#16] := by decide
theorem test_text_does_not_fit : assembleText ['C', 'M', 'D', ' ', '2', '5', '6'] = none := by decide
theorem test_text_prints_absent : assembleText ['P', 'R', 'I', 'N', 'T', 'S'] = some [] := by decide
theorem test_text_prints_empty : assembleText ['P', 'R', 'I', 'N', 'T', 'S', ' ', '"', '"'] = some [] := by decide
theorem test_text_prints_zero :
    assembleText ['P', 'R', 'I', 'N', 'T', 'S', ' ', '"', 'A', '\\', '0', 'B', '"'] = some [0x3041#16] := by decide
theorem test_prints_ab :
    printsRequests (some [0x41#8, 0x42#8]) = [.data 0#4 0x41#8, .data 0#4 0x42#8] ∧
    printsRequests (some [0x00#8, 0x41#8]) = [] ∧ printsRequests none = [] := by decide
theorem test_print_words :
    printWord 0x4105#16 = ['S', 'E', 'T', 'C', 'U', 'R', ' ', '0', 'x', '1', ',', ' ', '0', 'x', '0', '5'] ∧
    printWord 0x1FFF#16 = ['I', 'N', 'I', 'T'] ∧
    printWord 0xF123#16 = ['.', 'w', 'o', 'r', 'd', ' ', '0', 'x', 'f', '1', '2', '3'] := by decide

/-! ### Single edges, in the reference configuration -/

/-- The state of an outcome, if it is a next state. -/
def nextOf : Host.Outcome State Fault Refusal → Option State
  | .next s => some s
  | _       => none

/-- What a test looks at: the lines, the phase and count, the samples and the edge number. -/
structure Look where
  fsm     : Fsm
  lines   : Lines
  ph      : Phase
  cnt     : Nat
  samples : List Sample
  t       : Nat
deriving DecidableEq, Repr

/-- The look of an outcome, if it is a next state. -/
def look (o : Host.Outcome State Fault Refusal) : Option Look :=
  (nextOf o).map fun s => ⟨s.fsm, s.lines, s.ph, s.cnt, s.samples, s.t⟩

/-- The state after reset with a word on the port. -/
def present (w : Nat) : State := State.reset.withFetchWord 16 w

/-- The phase and violations of an outcome. -/
def monOf (o : Host.Outcome State Fault Refusal) : Option Monitor := (nextOf o).map (·.mon)

/-- Vector PI-1, cycle 1. -/
theorem test_cmd_accept :
    look (step (present 0x2028)) = some ⟨.run, ⟨0x2#4, false, false⟩, .setup, 1, [], 1⟩ := by decide
/-- Vector PI-1, cycles 2 and 3: E rises; E falls with the sample 3:(0, 0x2). -/
theorem test_cmd_pulse :
    look (run 2 (present 0x2028)) = some ⟨.run, ⟨0x2#4, false, true⟩, .high, 1, [], 2⟩ ∧
    look (run 3 (present 0x2028)) = some ⟨.run, ⟨0x2#4, false, false⟩, .tail, 1, [⟨3, false, 0x2#4⟩], 3⟩ := by decide
/-- Vector PI-1, cycles 7 and 8: the trailing wait. -/
theorem test_cmd_wait :
    look (run 7 (present 0x2028)) =
      some ⟨.run, ⟨0x8#4, false, false⟩, .wait, 2000, [⟨3, false, 0x2#4⟩, ⟨6, false, 0x8#4⟩], 7⟩ := by decide
/-- Vector DA-1. -/
theorem test_data_samples :
    look (run 6 (present 0x3041)) =
      some ⟨.run, ⟨0x1#4, true, false⟩, .tail, 1, [⟨3, true, 0x4#4⟩, ⟨6, true, 0x1#4⟩], 6⟩ := by decide
/-- Vector SC-11: two violations at one acceptance. -/
theorem test_setcur_violations :
    monOf (step (present 0x4F0F)) = some ⟨.uninit, ⟨false, true, true, false⟩⟩ := by decide
/-- Vector SC-4's samples. -/
theorem test_setcur_samples :
    (look (run 6 (present 0x4105))).map (·.samples) = some [⟨3, false, 0xC#4⟩, ⟨6, false, 0x5#4⟩] := by decide
/-- Vector CL-2: CL-1's samples with the ignored fields set. -/
theorem test_clear_samples :
    (look (run 6 (present 0x5ABC))).map (·.samples) = some [⟨3, false, 0x0#4⟩, ⟨6, false, 0x1#4⟩] := by decide
/-- Vector PI-5: DRIVE_LOW makes no sample. -/
theorem test_init_drive_low :
    look (run 2 (present 0x1000)) = some ⟨.run, ⟨0x0#4, false, false⟩, .wait, 100000, [], 2⟩ := by decide
/-- Vector RS-1: a reserved word is dropped, and INIT can be accepted at edge 2. -/
theorem test_reserved :
    (nextOf (step (present 0x6000))).map (fun s => (s.fsm, s.refused, s.lines, s.reqReady)) =
      some (.idle, true, ⟨0x0#4, false, false⟩, true) := by decide

/-- Vectors RT-1, RT-3: CMD 0x28 at edge 1, then `rst` at edge 2 or 4. -/
def resetAt (r : Nat) : State :=
  { State.reset with host := [.offer 0x2028#16] ++ List.replicate (r - 2) (.drive ⟨false, false, 0#16⟩ 0) ++
      [.drive ⟨true, false, 0#16⟩ 0] }
theorem test_reset_in_setup :
    look (run 2 (resetAt 2)) = some ⟨.idle, ⟨0x0#4, false, false⟩, .wait, 0, [], 2⟩ ∧
    monOf (run 2 (resetAt 2)) = some ⟨.unknown, ⟨false, true, false, true⟩⟩ := by decide
theorem test_reset_in_tail :
    look (run 4 (resetAt 4)) = some ⟨.idle, ⟨0x0#4, false, false⟩, .wait, 0, [⟨3, false, 0x2#4⟩], 4⟩ := by decide
/-- Vector RT-2: `rst` at edge 3 with E high: one sample at edge 3, of whatever value. -/
theorem test_reset_in_high :
    (nextOf (run 3 (resetAt 3))).map (fun s => (s.samples.map (·.t), s.lines)) = some ([3], ⟨0x0#4, false, false⟩) := by
  rfl
/-- Vector HS-1: reset held over edges 1 and 2, DATA accepted at edge 3. -/
theorem test_reset_held :
    look (run 3 { State.reset with
        host := [.drive ⟨true, true, 0x3041#16⟩ 1, .drive ⟨false, true, 0x3041#16⟩ 0] }) =
      some ⟨.run, ⟨0x4#4, true, false⟩, .setup, 1, [], 3⟩ := by decide
/-- R189: a power cycle while idle and while running. -/
theorem test_power_cycle :
    monOf (run 1 { State.reset with mon := ⟨.readyEntry, Violations.none⟩, host := [.powerCycle] }) =
      some ⟨.uninit, Violations.none⟩ ∧
    monOf (run 2 { State.reset with host := [.offer 0x1000#16, .powerCycle] }) =
      some ⟨.unknown, ⟨false, false, false, true⟩⟩ := by decide

/-! ### A small elaboration, for whole requests -/

/-- Every wait one cycle. -/
def small : Config :=
  { Config.reference with tPowerOn := 1, tResetGap1 := 1, tResetGap2 := 1, tResetGap3 := 1, tWidthSettle := 1,
                          tInitSettle := 1, tByteGap := 1, cntW := 1 }
/-- Vector PI-2's pulse: L = 2, H = 3. -/
def wide : Config := { small with eLow := 2, eHigh := 3, cntW := 2 }

/-- PI-2 at entry edge 1: sample at edge 6, next action at edge 8. -/
theorem test_wide_pulse :
    look (run 6 (State.first wide [.offer 0x2028#16])) =
      some ⟨.run, ⟨0x2#4, false, false⟩, .tail, 2, [⟨6, false, 0x2#4⟩], 6⟩ ∧
    look (run 8 (State.first wide [.offer 0x2028#16])) =
      some ⟨.run, ⟨0x8#4, false, false⟩, .setup, 2, [⟨6, false, 0x2#4⟩], 8⟩ := by decide
/-- R138, R183, IN-1 with every wait one cycle: ten samples, and READY_ENTRY at the tenth. -/
theorem test_init_small :
    (nextOf (run 40 (State.first small [.offer 0x1000#16]))).map (fun s => s.observe [s.lines]) =
      some ⟨[⟨0x6#4, false, false⟩],
        [⟨5, false, 3⟩, ⟨9, false, 3⟩, ⟨13, false, 3⟩, ⟨17, false, 2⟩, ⟨21, false, 2⟩, ⟨24, false, 8⟩,
         ⟨28, false, 0⟩, ⟨31, false, 0xC⟩, ⟨35, false, 0⟩, ⟨38, false, 6⟩],
        .readyEntry, Violations.none, false⟩ := by decide

/-! ### Whole runs (R213) -/

/-- A host that offers DATA 0x41, and power-cycles the controller in the cycle of the completion. -/
def dataThenPower : List HostAct := [.offer 0x3041#16, .drive Port.quiet 6, .powerCycle]
/-- P3 with every wait one cycle: the levels in cycles 0 to 8, the two samples, V_BEFORE_INIT. The event in cycle 8 is
part of the run and adds no cycle. -/
theorem test_run_observed :
    (statesToEnd 9 (State.first small dataThenPower)).bind observeRun =
      some ⟨[⟨0, false, false⟩, ⟨4, true, false⟩, ⟨4, true, true⟩, ⟨4, true, false⟩, ⟨1, true, false⟩, ⟨1, true, true⟩,
          ⟨1, true, false⟩, ⟨1, true, false⟩, ⟨1, true, false⟩],
        [⟨3, true, 4⟩, ⟨6, true, 1⟩], .uninit, ⟨false, true, false, false⟩, false⟩ := by decide
/-- The run ends at its FIRST end: cycle 0, where the host presents nothing; and not while the host holds `rst`. -/
theorem test_run_first_end :
    statesToEnd 3 (State.first small []) = some [State.first small []] ∧
    (statesToEnd 3 (State.first small [.drive ⟨true, false, 0#16⟩ 1])).map List.length = some 3 ∧
    statesToEnd 3 (State.first small [.offer 0x3041#16]) = none := by decide

/-! ### Witnesses: for each statement with hypotheses, a state and operands that meet them -/

/-- An idle state with a request on the port. -/
def idleWith (w : ReqWord) : State := State.first small [.drive ⟨false, true, w⟩ 0]
/-- CMD 0x28 in the given phase of action `ap`, with one cycle left, and these levels. -/
def cmdAt (ap : BitVec 5) (ph : Phase) (cnt : Nat) (db : Nibble) (e : Level) : State :=
  { State.first small [] with fsm := .run, opR := 0x2#4, argR := 0x28#8, ap := ap, ph := ph, cnt := cnt, dbR := db, eR := e }
/-- INIT at the end of the HIGH phase of action `ap`. -/
def initAt (ap : BitVec 5) : State :=
  { State.first small [] with fsm := .run, opR := 0x1#4, ap := ap, ph := .high, cnt := 1, eR := true }

/-- The registers of `cmdAt` in its HIGH phase are a moment of action 0. -/
theorem coherent_high : (cmdAt 0#5 .high 1 0x2#4 true).Coherent :=
  ⟨progCmd small 0x28#8, .nibble 0x2#4 false, rfl, rfl, rfl, by decide, by decide⟩
theorem coherent_setup : (cmdAt 0#5 .setup 1 0x2#4 false).Coherent :=
  ⟨progCmd small 0x28#8, .nibble 0x2#4 false, rfl, rfl, rfl, by decide, by decide⟩
theorem coherent_first (h : List HostAct) : (State.first small h).Coherent := by
  show false = false
  rfl

theorem wit_SetcurByteTwoBases : (0x0#4 : Nibble) = 0x0#4 ∧ (0xF#4 : Nibble) ≠ 0x0#4 := by decide
theorem wit_PrintsStopsAtFirstZero : ∀ b ∈ [0x41#8, 0xFF#8], b ≠ 0x00#8 := by decide
theorem wit_DisassemblyAssembles :
    decode 0x6000#16 = .error (.reservedOp 0x6#4) ∧ decode 0x2A01#16 = .ok (.cmd 0xA#4 0x01#8) := ⟨rfl, rfl⟩
theorem wit_DecodeReadsOpAlone :
    decode 0x5FFF#16 = .ok (.clear 0xF#4 0xFF#8) ∧ (0x6#4 : Nibble) ≤ (0x6FFF#16).extractLsb' 12 4 := ⟨rfl, by decide⟩

/-- Both clauses of the monitor at INIT. -/
theorem wit_InitAccepted : (State.first small []).mon.mphase = .uninit ∧
    { State.first small [] with mon := ⟨.readyEntry, Violations.none⟩ }.mon.mphase ≠ .uninit := by decide
/-- The clauses of SETCUR at the boundary of its range: row 1 of 2, column 15 of 16; row 2; column 16. -/
theorem wit_SetcurAccepted :
    ((0x1#4 : Nibble).toNat < small.rows ∧ (0x0F#8 : Byte).toNat < small.cols) ∧
    (small.rows ≤ (0x2#4 : Nibble).toNat) ∧ (small.cols ≤ (0x10#8 : Byte).toNat) := by decide

theorem wit_StepRunsDecodedInstruction : (idleWith 0x4105#16).EdgeWith false .idle ∧
    (idleWith 0x4105#16).port.reqValid = true ∧
    decode (idleWith 0x4105#16).port.reqWord = .ok (.setcur 0x1#4 0x05#8) := ⟨by decide, by decide, rfl⟩
theorem wit_PresentedWordRunsNext : State.reset.cfg.elaborates = true ∧
    decode 0x1000#16 = .ok (.init 0x0#4 0x00#8) := ⟨by decide, rfl⟩
/-- Both ends of the reserved OP values. -/
theorem wit_ReservedRequestDropped :
    ((idleWith 0x0FFF#16).EdgeWith false .idle ∧ (idleWith 0x0FFF#16).port.reqValid = true ∧
      (idleWith 0x0FFF#16).port.reqWord.extractLsb' 12 4 = 0x0#4) ∧
    ((idleWith 0x6000#16).EdgeWith false .idle ∧ (idleWith 0x6000#16).port.reqValid = true ∧
      0x6#4 ≤ (idleWith 0x6000#16).port.reqWord.extractLsb' 12 4) := by decide
theorem wit_IdleEdgeHolds : (State.first small []).EdgeWith false .idle ∧
    (State.first small []).port.reqValid = false := by decide
theorem wit_RunStepCountsDown : (cmdAt 2#5 .wait 2 0x8#4 false).EdgeWith false .run ∧
    (cmdAt 2#5 .wait 2 0x8#4 false).program = some (progCmd small 0x28#8) ∧ 1 < (cmdAt 2#5 .wait 2 0x8#4 false).cnt := by
  decide
theorem wit_RunStepRaisesE : (cmdAt 0#5 .setup 1 0x2#4 false).EdgeWith false .run ∧
    (cmdAt 0#5 .setup 1 0x2#4 false).program = some (progCmd small 0x28#8) ∧
    (cmdAt 0#5 .setup 1 0x2#4 false).cnt ≤ 1 ∧ (cmdAt 0#5 .setup 1 0x2#4 false).ph = .setup := by decide
/-- The four actions of INIT whose samples move the monitor. -/
theorem wit_RunStepDropsEAndSamples : ∀ ap ∈ [6#5, 11#5, 14#5, 17#5],
    (initAt ap).EdgeWith false .run ∧ (initAt ap).program = some (progInit small) ∧ (initAt ap).cnt ≤ 1 ∧
    (initAt ap).ph = .high ∧ (initAt ap).opR = 0x1#4 ∧ (initAt ap).mon.mphase ≠ .unknown := by decide
/-- A NIBBLE after a TAIL, and a WAIT after a TAIL. -/
theorem wit_RunStepEntersNextAction :
    ((cmdAt 0#5 .tail 1 0x2#4 false).EdgeWith false .run ∧
      (cmdAt 0#5 .tail 1 0x2#4 false).program = some (progCmd small 0x28#8) ∧
      (progCmd small 0x28#8)[1]? = some (.nibble 0x8#4 false)) ∧
    ((cmdAt 1#5 .tail 1 0x8#4 false).EdgeWith false .run ∧
      (cmdAt 1#5 .tail 1 0x8#4 false).program = some (progCmd small 0x28#8) ∧
      (progCmd small 0x28#8)[2]? = some (.wait 1)) := by decide
theorem wit_RunStepCompletes : (cmdAt 2#5 .wait 1 0x8#4 false).EdgeWith false .run ∧
    (cmdAt 2#5 .wait 1 0x8#4 false).program = some (progCmd small 0x28#8) ∧
    (cmdAt 2#5 .wait 1 0x8#4 false).cnt ≤ 1 ∧ (cmdAt 2#5 .wait 1 0x8#4 false).ph = .wait ∧
    (progCmd small 0x28#8).length ≤ (cmdAt 2#5 .wait 1 0x8#4 false).ap.toNat + 1 := by decide
/-- A reset while idle, while running with E low, and while running with E high. -/
theorem wit_ResetEdgeResets :
    (State.first small [.drive ⟨true, true, 0x1000#16⟩ 0]).EdgeWith true .idle ∧
    { cmdAt 0#5 .setup 1 0x2#4 false with host := [.drive ⟨true, false, 0#16⟩ 0] }.EdgeWith true .run ∧
    ({ cmdAt 0#5 .high 1 0x2#4 true with host := [.drive ⟨true, false, 0#16⟩ 0] }.EdgeWith true .run ∧
      (cmdAt 0#5 .high 1 0x2#4 true).eR = true) := by decide
theorem wit_PowerCycleMovesMonitorOnly :
    ((State.first small [.powerCycle]).cfg.elaborates = true ∧ (State.first small [.powerCycle]).host = [.powerCycle] ∧
      (State.first small [.powerCycle]).fsm = .idle) ∧
    { cmdAt 0#5 .high 1 0x2#4 true with host := [.powerCycle] }.fsm = .run := by decide
theorem wit_OtherInitSequenceRefused : (State.first small [.otherInit]).cfg.elaborates = true ∧
    (State.first small [.otherInit]).host = [.otherInit] := by decide
theorem wit_IllegalElaborationRefused :
    (0 ∈ [{ small with tByteGap := 0 }.tByteGap]) ∧ 2 ^ { small with eHigh := 2 }.cntW - 1 < { small with eHigh := 2 }.eHigh := by
  decide
theorem wit_ReadyIsIdleWithoutReset :
    Port.rst ⟨false, true, 0x1000#16⟩ = (State.first small []).port.rst := by decide
theorem wit_RunIgnoresRequestPort : (cmdAt 0#5 .setup 1 0x2#4 false).EdgeWith false .run ∧
    eventNext [.offer 0x1000#16] = false ∧ (portOf [.offer 0x1000#16]).rst = false ∧
    (nextOf (step (cmdAt 0#5 .setup 1 0x2#4 false))).isSome = true := by decide

/-- For CoherentKept, CounterInRange, ApInsideProgram, NeverStops, SampleExactlyWhenEFalls and LinesStableAroundPulse: a
coherent state in mid-pulse, whose step answers a state that still runs. -/
theorem wit_Coherent : ∃ u, (cmdAt 0#5 .high 1 0x2#4 true).Coherent ∧
    (cmdAt 0#5 .high 1 0x2#4 true).cfg.elaborates = true ∧
    (cmdAt 0#5 .high 1 0x2#4 true).cnt ≤ (cmdAt 0#5 .high 1 0x2#4 true).cfg.largest ∧
    (cmdAt 0#5 .high 1 0x2#4 true).port.rst = false ∧ step (cmdAt 0#5 .high 1 0x2#4 true) = .next u ∧ u.fsm = .run ∧
    (cmdAt 0#5 .high 1 0x2#4 true).eR = true ∧ u.eR = false :=
  ⟨_, coherent_high, by decide, by decide, by decide, rfl, rfl, rfl, rfl⟩
/-- The other clauses of the two: E rises, and no sample is made. -/
theorem wit_Coherent_rises : ∃ u, (cmdAt 0#5 .setup 1 0x2#4 false).Coherent ∧
    step (cmdAt 0#5 .setup 1 0x2#4 false) = .next u ∧ (cmdAt 0#5 .setup 1 0x2#4 false).eR = false ∧ u.eR = true :=
  ⟨_, coherent_setup, rfl, rfl, rfl⟩
theorem wit_ProgramsWellFormed : small.elaborates = true ∧ wide.elaborates = true := by decide
theorem wit_LogOrderedKept : ∃ u, ({ State.first small [] with samples := [⟨0, false, 0#4⟩] } : State).LogOrdered ∧
    step { State.first small [] with samples := [⟨0, false, 0#4⟩] } = .next u :=
  ⟨_, ⟨by simp, by simp [State.first]⟩, rfl⟩
theorem wit_MarksNeverCleared : ∃ u,
    step { State.first small [] with mon := ⟨.unknown, ⟨true, true, true, true⟩⟩, refused := true } = .next u := ⟨_, rfl⟩
/-- For PhaseMovesOnlyByItsRules: a phase that moves by each of the four rules. -/
theorem wit_PhaseMovesOnlyByItsRules :
    monOf (step (initAt 17#5)) = some ⟨.readyEntry, Violations.none⟩ ∧
    monOf (step { idleWith 0x1000#16 with mon := ⟨.ready, Violations.none⟩ }) = some ⟨.unknown, ⟨true, false, false, false⟩⟩ ∧
    monOf (step { initAt 3#5 with host := [.drive ⟨true, false, 0#16⟩ 0] }) = some ⟨.unknown, ⟨false, false, false, true⟩⟩ ∧
    monOf (step { initAt 3#5 with host := [.powerCycle] }) = some ⟨.unknown, ⟨false, false, false, true⟩⟩ := by decide
theorem wit_UnknownUntilPowerCycle :
    monOf (step { State.first small [.powerCycle] with mon := ⟨.unknown, Violations.none⟩ }) =
      some ⟨.uninit, Violations.none⟩ := by decide

/-- For the statements about whole requests, and for IgnoredFieldsChangeNoTrace: each request accepted by an idle block of
a legal elaboration, with a host that presents nothing more. 39 and 7 and 14 are the durations (R139, R210). -/
theorem wit_WholeRequests : ∀ i ∈ [Instr.init 0#4 0#8, .cmd 0#4 0x28#8, .data 0#4 0x41#8, .setcur 1#4 15#8, .clear 0#4 0#8],
    small.elaborates = true ∧ ∃ t, exec i (State.first small []) = .next t ∧
      quietFor (programDur small (requestProgram small i)) t.host = true ∧
      programDur small (requestProgram small i) ∈ [39, 7, 14] := by
  intro i hi
  simp only [List.mem_cons, List.not_mem_nil, or_false] at hi
  rcases hi with rfl | rfl | rfl | rfl | rfl <;> exact ⟨by decide, _, rfl, by decide, by decide⟩
theorem wit_IgnoredFieldsChangeNoTrace :
    SameButIgnored (.init 0#4 0#8) (.init 0xF#4 0xFF#8) ∧ SameButIgnored (.cmd 0#4 1#8) (.cmd 0xA#4 1#8) ∧
    SameButIgnored (.data 0#4 1#8) (.data 0xA#4 1#8) ∧ SameButIgnored (.setcur 1#4 1#8) (.setcur 1#4 1#8) ∧
    SameButIgnored (.clear 0#4 0#8) (.clear 0xA#4 0xBC#8) := by
  simp [SameButIgnored]
/-- For TraceDependsOnRequestOnly: two idle states that differ in lines, log and monitor. -/
theorem wit_TraceDependsOnRequestOnly : ∃ t t', small.elaborates = true ∧
    exec (.init 0#4 0#8) (State.first small []) = .next t ∧
    exec (.init 0#4 0#8) { State.first small [] with dbR := 0xF#4, rsR := true, t := 9, mon := ⟨.readyEntry, Violations.none⟩ }
      = .next t' ∧
    quietFor 39 t.host = true ∧ quietFor 39 t'.host = true := ⟨_, _, by decide, rfl, rfl, by decide, by decide⟩
/-- For RequestsCarriedOutInOrder: two DATA requests (vector HS-4). -/
theorem wit_RequestsCarriedOutInOrder :
    (State.first small (hostOffering ([Instr.data 0#4 0x41#8, .data 0#4 0x42#8].map encode))).cfg.elaborates = true ∧
    (State.first small (hostOffering ([Instr.data 0#4 0x41#8, .data 0#4 0x42#8].map encode))).fsm = .idle := by decide
/-- For RunStopsAtItsFirstEnd and RunObservesEveryCycle: a run of eight edges and an event, and an end that a run reaches. -/
theorem wit_IsRun : ∃ ss, IsRun small dataThenPower ss ∧ ss.length = 10 ∧
    ∃ u, run 9 (State.first small dataThenPower) = .next u ∧ u.EndOfRun :=
  ⟨_, ⟨9, rfl⟩, rfl, _, rfl, by decide⟩
/-- For RunOfRequestsObserved, its last clause: INIT, then SETCUR at the last cell, DATA, CMD and CLEAR. -/
theorem wit_RunOfRequestsObserved : small.elaborates = true ∧
    ∀ j ∈ [Instr.setcur 1#4 15#8, .data 0#4 0x41#8, .cmd 0#4 0x01#8, .clear 0#4 0#8],
      j.op ≠ 0x1#4 ∧ (j.op = 0x4#4 → j.row.toNat < small.rows ∧ j.arg.toNat < small.cols) := by decide
/-- For SafeRunEndsInKnownPhase: a safe run with an INIT. -/
theorem wit_SafeRunEndsInKnownPhase : ∃ ss o, IsRun small [.offer 0x1000#16] ss ∧ observeRun ss = some o ∧ o.Safe :=
  ⟨_, _, ⟨40, rfl⟩, rfl, rfl, rfl⟩
/-- For DisplayRequestsKeepContract: SETCUR at the last cell, with the controller initialized. -/
theorem wit_DisplayRequestsKeepContract : ∃ t,
    small.elaborates = true ∧
    ({ State.first small [] with mon := ⟨.readyEntry, Violations.none⟩ } : State).Safe ∧
    (Instr.setcur 1#4 15#8).op ≠ 0x1#4 ∧ (1#4 : Nibble).toNat < small.rows ∧ (15#8 : Byte).toNat < small.cols ∧
    exec (.setcur 1#4 15#8) { State.first small [] with mon := ⟨.readyEntry, Violations.none⟩ } = .next t ∧
    quietFor 7 t.host = true :=
  ⟨_, by decide, ⟨rfl, rfl⟩, by decide, by decide, by decide, rfl, by decide⟩

end Sys2Proof.Tests
end

section
/-! SUPPORT. Proofs of the statements of spec/10_state.md: first what a step does to the configuration, the log and the
count, then the obligations, each a short use of these lemmas. -/

namespace Sys2Proof.Machine

/-! ### Acceptance and run steps (R123, R124) -/

/-- An accepted request is latched and its first action entered. -/
theorem exec_enters {i : Instr} {s u : State} (hx : exec i s = .next u) :
    ∃ a P, requestProgram s.cfg i = a :: P ∧
      u = enter a ((s.withMon (monAfterAccept s.cfg s.mon i)).latch i.op i.row i.arg) := by
  obtain ⟨a, P, hp⟩ := program_cons s.cfg i
  rw [exec_eq_accept, hp, accept_cons] at hx
  cases hx
  exact ⟨a, P, hp, rfl⟩

/-- A running block can only step by the run step of its program: without one it is stuck (R126). -/
theorem step_running {s u : State} (hs : s.EdgeWith false .run) (h : step s = .next u) :
    ∃ P, s.program = some P ∧ u = runEdge P (s.tick false) := by
  obtain ⟨hc, he, hr, hf⟩ := hs
  cases hP : s.program with
  | none =>
    rw [step_of_legal hc, stepOnce_edge he] at h
    simp [edge, edgeWith, hr, hf, State.accepts, State.reqReady, runStep, hP] at h
  | some P =>
    rw [step_of_legal hc, stepOnce_edge he, edge_run hr hf hP] at h
    cases h
    exact ⟨P, rfl, rfl⟩

/-- No step changes a parameter (R6). -/
theorem step_cfg {s u : State} (h : step s = .next u) : u.cfg = s.cfg := by
  obtain ⟨-, ⟨r, -, rfl⟩ | ⟨r, -, rfl⟩ | ⟨-, -, rfl⟩ | ⟨P, -, -, -, -, rfl⟩ | ⟨i, -, -, -, -, -, hx⟩ |
    ⟨_, -, -, -, -, -, rfl⟩ | ⟨-, -, -, -, rfl⟩⟩ := step_cases h
  · rfl
  · rfl
  · exact (resetEdge_spec (s.tick false)).1
  · exact (runEdge_frame P (s.tick false)).1
  · obtain ⟨a, P, -, rfl⟩ := exec_enters hx
    simp
  · rfl
  · rfl

/-- While a request is not complete the block runs on; the step that makes it idle changes nothing else. -/
theorem runEdge_idle {P : Program} {s : State} (hf : s.fsm = .run) (hu : (runEdge P s).fsm = .idle) :
    runEdge P s = s.complete := by
  rcases runEdge_cases P s with ⟨-, e⟩ | ⟨-, -, e⟩ | ⟨-, -, e⟩ | ⟨-, -, a, -, e⟩ | ⟨-, -, -, e⟩
  case inr.inr.inr.inr => exact e
  all_goals rw [e] at hu; simp [hf] at hu

/-! ### Coherence (R24, R26, R115, R117, R125) -/

/-- Within a phase, one cycle fewer is still a moment of the same action. -/
theorem DuringAction.countDown {cfg : Config} {a : Action} {ph : Phase} {cnt : Nat} {l : Lines}
    (h : DuringAction cfg a ph cnt l) (hc : 1 < cnt) : DuringAction cfg a ph (cnt - 1) l := by
  rcases during_cases h with ⟨v, m, rfl, rfl, rfl, h1, h2⟩ | ⟨v, m, rfl, rfl, rfl, h1, h2⟩ |
    ⟨v, m, rfl, rfl, rfl, h1, h2⟩ | ⟨n, rfl, rfl, hl, h1, h2⟩ | ⟨rfl, rfl, rfl, h1⟩
  · exact ⟨rfl, by omega, by omega⟩
  · exact ⟨rfl, by omega, by omega⟩
  · exact ⟨rfl, by omega, by omega⟩
  · exact ⟨hl, by omega, by omega⟩
  · omega

/-- After the SETUP of an action comes its HIGH: E rises over the same nibble and level. -/
theorem DuringAction.raise {cfg : Config} {a : Action} {cnt : Nat} {l : Lines} (hH : 1 ≤ cfg.eHigh)
    (h : DuringAction cfg a .setup cnt l) : DuringAction cfg a .high cfg.eHigh { l with e := true } := by
  cases a with
  | driveLow => exact h.elim
  | wait n => exact h.elim
  | nibble v m =>
    obtain ⟨rfl, -, -⟩ := h
    exact ⟨rfl, hH, le_rfl⟩

/-- After the HIGH of an action comes its TAIL: E falls over the same nibble and level. -/
theorem DuringAction.fall {cfg : Config} {a : Action} {cnt : Nat} {l : Lines} (hL : 1 ≤ cfg.eLow)
    (h : DuringAction cfg a .high cnt l) : DuringAction cfg a .tail cfg.eLow { l with e := false } := by
  cases a with
  | driveLow => exact h.elim
  | wait n => exact h.elim
  | nibble v m =>
    obtain ⟨rfl, -, -⟩ := h
    exact ⟨rfl, hL, le_rfl⟩

/-- In HIGH, E is high. -/
theorem during_high {cfg : Config} {a : Action} {cnt : Nat} {l : Lines} (h : DuringAction cfg a .high cnt l) :
    l.e = true := by
  cases a with
  | driveLow => exact h.elim
  | wait n => exact h.elim
  | nibble v m => rw [h.1]

/-- In a coherent running state E is high exactly in HIGH (R115). -/
theorem coherent_eR {s : State} (h : s.Coherent) (hf : s.fsm = .run) : s.eR = true ↔ s.ph = .high := by
  obtain ⟨P, a, -, -, hd⟩ := (coherent_run hf).1 h
  constructor
  · intro hE
    by_contra hp
    have hl : s.eR = false := during_low hd hp
    simp [hE] at hl
  · intro hp
    rw [hp] at hd
    exact during_high hd

/-- Where an action ends, E is low. -/
theorem coherent_action_end {s : State} (h : s.Coherent) (hf : s.fsm = .run) (hp : s.ph = .tail ∨ s.ph = .wait) :
    s.eR = false := by
  rw [← Bool.not_eq_true, coherent_eR h hf]
  rcases hp with hp | hp <;> simp [hp]

/-- The run step of a coherent state: within an action the next moment of it, else the entry of the next action, or idle
with E low. -/
theorem runEdge_coherent {P : Program} {s : State} (hc : s.cfg.elaborates = true) (hf : s.fsm = .run)
    (hP : s.program = some P) (h : s.Coherent) : (runEdge P s).Coherent := by
  obtain ⟨P', a, hP', ha, hd⟩ := (coherent_run hf).1 h
  obtain rfl : P' = P := by simpa [hP] using hP'.symm
  rcases runEdge_cases P' s with ⟨hn, e⟩ | ⟨-, hp, e⟩ | ⟨-, hp, e⟩ | ⟨-, hp, b, hb, e⟩ | ⟨-, hp, -, e⟩ <;> rw [e]
  · exact (coherent_run (s := s.countDown) hf).2 ⟨P', a, hP, ha, hd.countDown hn⟩
  · rw [hp] at hd
    exact (coherent_run (s := (s.setE true).startPhase .high s.cfg.eHigh) hf).2
      ⟨P', a, hP, ha, hd.raise (eHigh_pos hc)⟩
  · rw [hp] at hd
    exact (coherent_run (s := fallE s) hf).2 ⟨P', a, hP, ha, hd.fall (eLow_pos hc)⟩
  · have hE : s.eR = false := coherent_action_end h hf hp
    refine coherent_enter (s := s.advance) hc hf hP ?_ hE
    rwa [State.advance_ap, ap_succ hP hb]
  · have hE : s.eR = false := coherent_action_end h hf hp
    exact (coherent_idle (s := s.complete) rfl).2 hE

/-- An accepted request starts at a moment of its action 0. -/
theorem exec_coherent {i : Instr} {s u : State} (hc : s.cfg.elaborates = true) (hE : s.eR = false)
    (hx : exec i s = .next u) : u.Coherent := by
  obtain ⟨a, P, hp, rfl⟩ := exec_enters hx
  exact coherent_enter (P := a :: P) hc rfl (by simp [hp]) rfl hE

/-- Settles O29: acceptance enters action 0, a run step moves within the program, everything else leaves the registers or
resets them. -/
theorem coherentKept : Obligations.CoherentKept := by
  intro s u hs h
  obtain ⟨hc, ⟨r, -, rfl⟩ | ⟨r, -, rfl⟩ | ⟨-, -, rfl⟩ | ⟨P, -, -, hf, hP, rfl⟩ | ⟨i, -, -, hf, -, -, hx⟩ |
    ⟨_, -, -, -, -, -, rfl⟩ | ⟨-, -, -, -, rfl⟩⟩ := step_cases h
  · exact hs
  · exact hs
  · exact (coherent_idle rfl).2 rfl
  · exact runEdge_coherent hc hf hP hs
  · exact exec_coherent (s := s.tick true) hc ((coherent_idle hf).1 hs) hx
  · exact hs
  · exact hs

/-! ### Programs, the count and the action index (R26, R27, R113) -/

/-- A program's WAITs are timed by cycle parameters, so `cnt` can hold them (R27, R113). -/
theorem action_wellFormed {cfg : Config} (hc : cfg.elaborates = true) {i : Instr} {a : Action}
    (ha : a ∈ requestProgram cfg i) : a.wellFormed cfg = true := by
  cases a with
  | driveLow => rfl
  | wait n => simpa [Action.wellFormed] using (elaborates_iff cfg).1 hc n (wait_mem_cycleParams ha)
  | nibble v m => rfl

/-- Every program ends in a WAIT (R125). -/
theorem program_ends_in_wait (cfg : Config) (i : Instr) :
    ((requestProgram cfg i).getLast?.map Action.isWait).getD false = true := by
  cases i <;> rfl

/-- Settles O32: by the length, the waits and the end of each request's program. -/
theorem programsWellFormed : Obligations.ProgramsWellFormed := by
  intro cfg i hc
  obtain ⟨hmin, hmax⟩ := program_length cfg i
  have hall : (requestProgram cfg i).all (Action.wellFormed cfg) = true :=
    List.all_eq_true.2 fun a ha => action_wellFormed hc ha
  simp [Program.wellFormed, hmin, hmax, hall, program_ends_in_wait]

/-- While a request runs, `cnt` is at least 1 and at most the largest cycle parameter (R27). -/
theorem coherent_cnt {s : State} (hc : s.cfg.elaborates = true) (hf : s.fsm = .run) (h : s.Coherent) :
    1 ≤ s.cnt ∧ s.cnt ≤ s.cfg.largest := by
  obtain ⟨P, a, hP, ha, hd⟩ := (coherent_run hf).1 h
  obtain ⟨i, -, rfl⟩ := expand_eq_some hP
  have hL : s.cfg.eLow ≤ s.cfg.largest := le_largest (by simp [Config.cycleParams])
  have hH : s.cfg.eHigh ≤ s.cfg.largest := le_largest (by simp [Config.cycleParams])
  rcases during_cases hd with ⟨v, m, -, -, -, h1, h2⟩ | ⟨v, m, -, -, -, h1, h2⟩ | ⟨v, m, -, -, -, h1, h2⟩ |
    ⟨n, rfl, -, -, h1, h2⟩ | ⟨-, -, -, h1⟩
  · exact ⟨h1, h2.trans hL⟩
  · exact ⟨h1, h2.trans hH⟩
  · exact ⟨h1, h2.trans hL⟩
  · exact ⟨h1, h2.trans (le_largest (wait_mem_cycleParams (List.mem_of_getElem? ha)))⟩
  · exact ⟨h1.ge, h1.le.trans ((eLow_pos hc).trans hL)⟩

/-- A step to an idle block does not raise `cnt`: a reset clears it, and nothing else writes it. -/
theorem step_idle_cnt {s u : State} (h : step s = .next u) (hu : u.fsm = .idle) : u.cnt ≤ s.cnt := by
  obtain ⟨-, ⟨r, -, rfl⟩ | ⟨r, -, rfl⟩ | ⟨-, -, rfl⟩ | ⟨P, -, -, hf, -, rfl⟩ | ⟨i, -, -, -, -, -, hx⟩ |
    ⟨_, -, -, -, -, -, rfl⟩ | ⟨-, -, -, -, rfl⟩⟩ := step_cases h
  · exact le_rfl
  · exact le_rfl
  · exact Nat.zero_le _
  · rw [runEdge_idle (s := s.tick false) hf hu]
    exact le_rfl
  · obtain ⟨a, P, -, rfl⟩ := exec_enters hx
    simp at hu
  · exact le_rfl
  · exact le_rfl

/-- Settles O30: a running state is coherent after the step, and an idle one keeps the count it had. -/
theorem counterInRange : Obligations.CounterInRange := by
  intro s u hs hn h
  have hcfg := step_cfg h
  have hc : u.cfg.elaborates = true := hcfg ▸ (step_cases h).1
  have hrun : u.fsm = .run → 1 ≤ u.cnt ∧ u.cnt ≤ u.cfg.largest := fun hf => coherent_cnt hc hf (coherentKept s u hs h)
  have hle : u.cnt ≤ u.cfg.largest := by
    cases hf : u.fsm with
    | idle => exact hcfg ▸ (step_idle_cnt h hf).trans hn
    | run => exact (hrun hf).2
  exact ⟨hle, Nat.le_sub_one_of_lt (hle.trans_lt (largest_lt hc)), fun hf => (hrun hf).1⟩

/-- Settles O31: a coherent running state is at an action of a program of at most 19. -/
theorem apInsideProgram : Obligations.ApInsideProgram := by
  intro s u hs h hf
  obtain ⟨P, a, hP, ha, -⟩ := (coherent_run hf).1 (coherentKept s u hs h)
  have hap : u.ap.toNat < P.length := (List.getElem?_eq_some_iff.1 ha).1
  have hlen := program_le hP
  exact ⟨P, hP, hap, by omega⟩

/-! ### The sample log (R31, R32, R116) -/

/-- The run step and the log: at the end of HIGH one sample is made and E falls; else the log stays, and so does E in
HIGH. -/
theorem runEdge_log (P : Program) (s : State) :
    ((runEdge P s).samples = s.samples ++ [⟨s.t, s.rsR, s.dbR⟩] ∧ s.ph = .high ∧ (runEdge P s).eR = false) ∨
    ((runEdge P s).samples = s.samples ∧ (s.ph = .high → (runEdge P s).eR = s.eR)) := by
  rcases runEdge_cases P s with ⟨-, e⟩ | ⟨-, hp, e⟩ | ⟨-, hp, e⟩ | ⟨-, hp, a, -, e⟩ | ⟨-, -, -, e⟩ <;> rw [e]
  · exact .inr ⟨rfl, fun _ => rfl⟩
  · exact .inr ⟨rfl, by simp [hp]⟩
  · exact .inl ⟨rfl, hp, rfl⟩
  · exact .inr ⟨by simp, fun hh => by simp [hh] at hp⟩
  · exact .inr ⟨rfl, fun _ => rfl⟩

/-- `u` follows `s` with one sample more, stamped with `u`'s edge, of the levels before the edge unless `rst` was 1. -/
def SampledOnce (s u : State) : Prop :=
  ∃ x, u.samples = s.samples ++ [x] ∧ x.t = u.t ∧ (s.port.rst = false → x.rs = s.rsR ∧ x.nib = s.dbR)

/-- What a step does to the log: it makes one sample at a new edge, or none. From a coherent state these are the steps
at which E falls, and the others. -/
theorem step_log {s u : State} (h : step s = .next u) :
    (SampledOnce s u ∧ u.t = s.t + 1 ∧ (s.Coherent → s.eR = true ∧ u.eR = false)) ∨
    (u.samples = s.samples ∧ s.t ≤ u.t ∧ (s.Coherent → ¬(s.eR = true ∧ u.eR = false))) := by
  obtain ⟨-, ⟨r, -, rfl⟩ | ⟨r, -, rfl⟩ | ⟨-, hr, rfl⟩ | ⟨P, -, -, hf, -, rfl⟩ | ⟨i, -, -, hf, -, -, hx⟩ |
    ⟨_, -, -, -, -, -, rfl⟩ | ⟨-, -, -, -, rfl⟩⟩ := step_cases h
  · exact .inr ⟨rfl, le_rfl, fun _ => by simp [powerCycle]⟩
  · exact .inr ⟨rfl, le_rfl, fun _ => by simp [askOtherInit]⟩
  · obtain ⟨-, -, -, -, ht, -, -, hS⟩ := resetEdge_spec (s.tick false)
    cases hE : s.eR with
    | true =>
      exact .inl ⟨⟨_, by simpa [hE] using hS, ht.symm, by simp [hr]⟩, ht, fun _ => ⟨rfl, rfl⟩⟩
    | false => exact .inr ⟨by simpa [hE] using hS, by simp [ht], fun _ => by simp⟩
  · obtain ⟨-, -, -, -, ht, -⟩ := runEdge_frame P (s.tick false)
    rcases runEdge_log P (s.tick false) with ⟨hS, hp, hE⟩ | ⟨hS, hE⟩
    · exact .inl ⟨⟨_, hS, ht.symm, fun _ => ⟨rfl, rfl⟩⟩, ht, fun hs => ⟨(coherent_eR hs hf).2 hp, hE⟩⟩
    · refine .inr ⟨hS, by simp [ht], fun hs => ?_⟩
      rintro ⟨h1, h0⟩
      have hkeep := hE ((coherent_eR hs hf).1 h1)
      simp [h0, h1] at hkeep
  · obtain ⟨a, P, -, rfl⟩ := exec_enters hx
    exact .inr ⟨by simp, by simp, fun hs => by simp [(coherent_idle hf).1 hs]⟩
  · exact .inr ⟨rfl, Nat.le_succ _, fun _ => by simp [acceptReserved]⟩
  · exact .inr ⟨rfl, Nat.le_succ _, fun _ => by simp⟩

/-- A sample stamped later than every edge so far keeps the log in order. -/
theorem logOrdered_append {s u : State} {x : Sample} (hs : s.LogOrdered) (hS : u.samples = s.samples ++ [x])
    (hx : x.t = u.t) (ht : s.t < u.t) : u.LogOrdered := by
  obtain ⟨hord, hpast⟩ := hs
  constructor
  · rw [hS, List.pairwise_append]
    refine ⟨hord, by simp, fun y hy z hz => ?_⟩
    have := hpast y hy
    obtain rfl : z = x := by simpa using hz
    omega
  · intro y hy
    rw [hS, List.mem_append, List.mem_singleton] at hy
    rcases hy with hy | rfl
    · exact (hpast y hy).trans ht.le
    · exact hx.le

/-- Settles O34: a step makes one sample at a new edge, or none. -/
theorem logOrderedKept : Obligations.LogOrderedKept := by
  intro s u hs h
  rcases step_log h with ⟨⟨x, hS, hx, -⟩, ht, -⟩ | ⟨hS, ht, -⟩
  · exact logOrdered_append hs hS hx (by omega)
  · obtain ⟨hord, hpast⟩ := hs
    exact ⟨hS ▸ hord, fun y hy => (hpast y (hS ▸ hy)).trans ht⟩

/-- Settles O36: from a coherent state the steps that sample are those at which E falls. -/
theorem sampleExactlyWhenEFalls : Obligations.SampleExactlyWhenEFalls := by
  intro s u hs h
  rcases step_log h with ⟨hS, -, hE⟩ | ⟨hS, -, hE⟩
  · exact ⟨fun _ => hS, fun hn => absurd (hE hs) hn⟩
  · exact ⟨fun hf => absurd hf (hE hs), fun _ => hS⟩

/-! ### The request port (R21, R22, R74, R123) -/

/-- Settles O27: the run step does not read the host. -/
theorem runIgnoresRequestPort : Obligations.RunIgnoresRequestPort := by
  intro s u h hs he hr hstep
  obtain ⟨P, hP, rfl⟩ := step_running hs hstep
  obtain ⟨hc, -, -, hf⟩ := hs
  obtain ⟨-, -, hrow, harg, -⟩ := runEdge_frame P (s.tick false)
  calc step { s with host := h }
      = edge { s with host := h } :=
        (step_of_legal (s := { s with host := h }) hc).trans (stepOnce_edge he)
    _ = .next (runEdge P ((s.tick false).overlay s.rowR s.argR (hostAfterEdge false h))) := edge_run hr hf hP
    _ = .next ((runEdge P (s.tick false)).overlay s.rowR s.argR (hostAfterEdge false h)) := by rw [runEdge_overlay]
    _ = .next { runEdge P (s.tick false) with host := hostAfterEdge false h } := by
        simp only [State.tick_rowR, State.tick_argR] at hrow harg
        rw [State.overlay, ← hrow, ← harg]

/-- Settles O13: the edge accepts the word, and the word's acceptance is its request's meaning. -/
theorem stepRunsDecodedInstruction : Obligations.StepRunsDecodedInstruction := by
  rintro s i ⟨hc, he, hr, hf⟩ hv hd
  rw [step_of_legal hc, stepOnce_edge he, edge_accept hr hf hv, acceptWord, hd]
  rfl

/-- A request word is its own table word. -/
theorem tableWord_toNat (w : ReqWord) : tableWord 16 w.toNat = w := by
  simp [tableWord, Nat.mod_eq_of_lt w.isLt]

/-- Settles O14: the presented word is on the port of an idle block, and the cycle that drives it is then over. -/
theorem presentedWordRunsNext : Obligations.PresentedWordRunsNext := by
  intro s w i hc hd
  rw [State.withFetchWord, tableWord_toNat]
  exact stepRunsDecodedInstruction (presentWord w s) i ⟨hc, rfl, rfl, rfl⟩ rfl hd

/-- `req_ready` reads `fsm` and `rst` (R21). -/
theorem reqReady_iff (s : State) : s.reqReady = true ↔ s.fsm = .idle ∧ s.port.rst = false := by
  simp [State.reqReady]

/-- Settles O26: `req_ready` is the same for every port with the same `rst`. -/
theorem readyIsIdleWithoutReset : Obligations.ReadyIsIdleWithoutReset := by
  intro s
  refine ⟨reqReady_iff s, rfl, fun p n r hp => ?_⟩
  have hport : ({ s with host := .drive p n :: r } : State).port = p := rfl
  rw [Bool.eq_iff_iff, reqReady_iff, reqReady_iff, hport, hp]

/-! ### After the first reset (R36) -/

/-- Settles O28: the registers are idle with E low, the log and `V` are empty. -/
theorem resetStateValues : Obligations.ResetStateValues := by
  intro cfg h
  have hlog : (State.first cfg h).samples = [] := rfl
  refine ⟨rfl, (coherent_idle rfl).2 rfl, ?_, rfl, rfl⟩
  rw [State.LogOrdered, hlog]
  exact ⟨.nil, by simp⟩

end Sys2Proof.Machine
end

section
/-! SUPPORT. Proofs of the statements of spec/20_memory.md: a whole request from its acceptance to its completion, then
requests offered one after another. -/

namespace Sys2Proof.Machine

/-! ### One request (R123, R127, R128, R183) -/

/-- `u` is the state at the completion of request `i` accepted in `s` (the state at the acceptance edge, before its
writes). -/
structure RequestDone (i : Instr) (s u : State) : Prop where
  fsm     : u.fsm = .idle
  cfg     : u.cfg = s.cfg
  opR     : u.opR = i.op
  rowR    : u.rowR = i.row
  argR    : u.argR = i.arg
  lines   : u.lines = linesAfterProgram s.lines (requestProgram s.cfg i)
  samples : u.samples = s.samples ++ programSamples s.cfg s.t (requestProgram s.cfg i)
  t       : u.t = s.t + programDur s.cfg (requestProgram s.cfg i)
  host    : u.host = hostAfterEdges (programDur s.cfg (requestProgram s.cfg i)) s.host
  refused : u.refused = s.refused
  freeCtr : u.freeCtr = s.freeCtr
  mon     : u.mon = monProgram i.op 0 (requestProgram s.cfg i) (monAfterAccept s.cfg s.mon i)

/-- An accepted request runs, with the lines of its program, to its completion D(P) edges later. -/
theorem run_request {i : Instr} {s t : State} (hc : s.cfg.elaborates = true) (hx : exec i s = .next t)
    (hq : quietFor (programDur s.cfg (requestProgram s.cfg i)) s.host = true) :
    (∀ j < programDur s.cfg (requestProgram s.cfg i), ∃ u, run j t = .next u ∧ u.fsm = .run ∧
      u.lines = programLines s.cfg s.lines (requestProgram s.cfg i) j) ∧
    ∃ u, run (programDur s.cfg (requestProgram s.cfg i)) t = .next u ∧ RequestDone i s u := by
  obtain ⟨a, P, hp, rfl⟩ := exec_enters hx
  have hlen : (a :: P).length ≤ 19 := hp ▸ (program_length s.cfg i).2
  have hpos : ∀ b ∈ a :: P, 1 ≤ actionDur s.cfg b := fun b hb => actionDur_pos hc (hp ▸ hb)
  rw [hp] at hq ⊢
  obtain ⟨during, u, hu, fsm, cfg, opR, rowR, argR, lines, samples, ht, host, refused, freeCtr, mon⟩ :=
    run_program P a (s := (s.withMon (monAfterAccept s.cfg s.mon i)).latch i.op i.row i.arg) hc rfl
      (by simp [hp]) hlen rfl hpos hq
  exact ⟨during, u, hu, fsm, cfg, opR, rowR, argR, hp ▸ lines, hp ▸ samples, hp ▸ ht, hp ▸ host, refused, freeCtr,
    hp ▸ mon⟩

/-! ### A host that offers requests (R22, R205) -/

/-- The decoder reads back the request that was encoded (R80 to R82). -/
theorem decode_encode (i : Instr) : decode (encode i) = .ok i := by
  cases i <;> simp [encode, decode, opInit, opCmd, opData, opSetcur, opClear]

/-- Only an acceptance moves an offering host on. -/
theorem hostAfterEdge_offering (ws : List ReqWord) :
    hostAfterEdge false (hostOffering ws) = hostOffering ws := by
  cases ws <;> rfl

theorem hostAfterEdges_offering (n : Nat) (ws : List ReqWord) :
    hostAfterEdges n (hostOffering ws) = hostOffering ws := by
  induction n with
  | zero => rfl
  | succ n ih => rw [hostAfterEdges, hostAfterEdge_offering, ih]

/-- An offering host drives `rst = 0` in every cycle. -/
theorem portOf_offering_rst (ws : List ReqWord) : (portOf (hostOffering ws)).rst = false := by
  cases ws <;> rfl

theorem quietFor_offering (n : Nat) (ws : List ReqWord) : quietFor n (hostOffering ws) = true := by
  induction n with
  | zero => rfl
  | succ n ih =>
    simp [quietFor, eventNext_of_noEvents (noEvents_offering ws), portOf_offering_rst, hostAfterEdge_offering, ih]

/-- An idle block accepts an offered request at the next edge, and the host moves on to the next one (R22, R123). -/
theorem step_accepts_offer {i : Instr} {s : State} {r : List HostAct} (hc : s.cfg.elaborates = true)
    (hf : s.fsm = .idle) (hh : s.host = .offer (encode i) :: r) :
    step s = exec i (s.tick true) ∧ (s.tick true).host = r := by
  have hport : s.port = ⟨false, true, encode i⟩ := by rw [State.port, hh]; rfl
  have hev : eventNext s.host = false := by rw [hh]; rfl
  constructor
  · rw [step_of_legal hc, stepOnce_edge hev, edge_accept (by rw [hport]) hf (by rw [hport]), acceptWord, hport,
      decode_encode]
  · rw [State.tick_host, hh]; rfl

/-- The first of several offered requests: accepted at the next edge, complete after D(P) more, and the host then offers
the others (R70, R127). -/
theorem run_first_offer {i : Instr} {s : State} {ws : List ReqWord} (hc : s.cfg.elaborates = true)
    (hf : s.fsm = .idle) (hh : s.host = hostOffering (encode i :: ws)) :
    ∃ u, run (1 + programDur s.cfg (requestProgram s.cfg i)) s = .next u ∧ RequestDone i (s.tick true) u ∧
      u.host = hostOffering ws := by
  obtain ⟨hs, hhost⟩ := step_accepts_offer hc hf hh
  have hx := exec_eq_accept i (s.tick true)
  obtain ⟨-, u, hu, done⟩ := run_request (s := s.tick true) hc hx (hhost.symm ▸ quietFor_offering _ ws)
  refine ⟨u, ?_, done, ?_⟩
  · rw [Nat.add_comm, run_succ (hs.trans hx)]
    exact hu
  · rw [done.host, hhost]
    exact hostAfterEdges_offering _ ws

/-- An idle block whose host has nothing left to present is at the end of its run (R213). -/
theorem endOfRun_of_idle {s : State} (hf : s.fsm = .idle) (hh : s.host = []) : s.EndOfRun := by
  simp [State.EndOfRun, State.port, hf, hh, eventNext, noFurtherRequest, portOf, Port.quiet]

/-- Settles O50, by induction on the list: the first request completes with the block idle and the host offering the
others. -/
theorem requestsCarriedOutInOrder : Obligations.RequestsCarriedOutInOrder := by
  intro is
  induction is with
  | nil =>
    intro s _ hf hh
    exact ⟨s, rfl, endOfRun_of_idle hf hh, hh, rfl, by simp [sequenceSamples]⟩
  | cons i is ih =>
    intro s hc hf hh
    obtain ⟨v, hv, done, hhost⟩ := run_first_offer hc hf hh
    have hcfg : v.cfg = s.cfg := done.cfg
    have ht : v.t = s.t + 1 + programDur s.cfg (requestProgram s.cfg i) := done.t
    have hS : v.samples = s.samples ++ programSamples s.cfg (s.t + 1) (requestProgram s.cfg i) := done.samples
    obtain ⟨u, hu, hend, hnil, hut, huS⟩ := ih v (hcfg ▸ hc) done.fsm hhost
    rw [hcfg] at hu hut huS
    refine ⟨u, ?_, hend, hnil, ?_, ?_⟩
    · rw [sequenceDur, run_add hv, hu]
    · rw [hut, ht, sequenceDur]
      omega
    · rw [huS, hS, ht, sequenceSamples, List.append_assoc]

end Sys2Proof.Machine
end

section
/-! SUPPORT. Proofs of the statements of spec/30_encoding.md: the decoder inverts the encoder, the assembler reads what
the disassembler writes, and the run step reads no ignored field. -/

namespace Sys2Proof.Machine

/-! ### Requests and words (R80 to R85) -/

/-- Settles O1, by the fields of a packed word. -/
theorem encodeDecodeRoundTrip : Obligations.EncodeDecodeRoundTrip := decode_encode

/-- The decoder answers a request for the word of that request and for no other word. -/
theorem decode_eq_ok_iff {w : ReqWord} {i : Instr} : decode w = .ok i ↔ encode i = w := by
  constructor
  · intro hd
    have word : ∀ {o : Nibble} {i' : Instr}, opField w = o → decode w = .ok i' → i'.op = o → i'.row = rowField w →
        i'.arg = argField w → encode i = w := by
      intro o i' ho hi' hop hrow harg
      obtain rfl : i' = i := by simpa [hi'] using hd
      rw [encode_eq, hop, hrow, harg, ← ho, packWord_fields]
    rcases decode_cases w with ⟨ho, h⟩ | ⟨ho, h⟩ | ⟨ho, h⟩ | ⟨ho, h⟩ | ⟨ho, h⟩ | ⟨-, h⟩
    case inr.inr.inr.inr.inr => rw [h] at hd; cases hd
    all_goals exact word ho h rfl rfl rfl
  · rintro rfl
    exact decode_encode i

/-- A word is the packing of its own ROW and ARG under its own OP only. -/
theorem packWord_op_eq_iff {o : Nibble} {w : ReqWord} : packWord o (rowField w) (argField w) = w ↔ opField w = o := by
  constructor
  · intro h
    rw [← h, opField_packWord]
  · rintro rfl
    exact packWord_fields w

/-- A word decodes to the request with its ROW and ARG that its OP names (R82, R85). -/
theorem decode_own_fields_iff {w : ReqWord} {i : Instr} (hrow : i.row = rowField w) (harg : i.arg = argField w) :
    decode w = .ok i ↔ opField w = i.op := by
  rw [decode_eq_ok_iff, encode_eq, hrow, harg, packWord_op_eq_iff]

/-- The decoder refuses the reserved OP values (R84). -/
theorem decode_reserved_iff {w : ReqWord} :
    decode w = .error (.reservedOp (opField w)) ↔ (opField w = 0x0#4 ∨ 0x6#4 ≤ opField w) := by
  rcases decode_cases w with ⟨ho, h⟩ | ⟨ho, h⟩ | ⟨ho, h⟩ | ⟨ho, h⟩ | ⟨ho, h⟩ | ⟨hr, h⟩
  case inr.inr.inr.inr.inr => exact iff_of_true h hr
  all_goals rw [h, ho]; simp

/-- Settles O2: a word decodes to a request exactly when it is that request's word. -/
theorem decodeReadsOpAlone : Obligations.DecodeReadsOpAlone := fun _ =>
  ⟨decode_own_fields_iff rfl rfl, decode_own_fields_iff rfl rfl, decode_own_fields_iff rfl rfl,
    decode_own_fields_iff rfl rfl, decode_own_fields_iff rfl rfl, decode_reserved_iff, fun _ => decode_eq_ok_iff.1⟩

/-- Settles O3, by running the decoder on the eight words. -/
theorem specWordsDecode : Obligations.SpecWordsDecode := by
  unfold Obligations.SpecWordsDecode
  decide

/-! ### The assembler's text (R95 to R97, R152) -/

/-- The request with its ignored fields written as zero (R95). -/
def zeroIgnored : Instr → Instr
  | .init _ _   => .init 0x0#4 0x00#8
  | .cmd _ b    => .cmd 0x0#4 b
  | .data _ b   => .data 0x0#4 b
  | .setcur r c => .setcur r c
  | .clear _ _  => .clear 0x0#4 0x00#8

theorem sameButIgnored_zeroIgnored (i : Instr) : SameButIgnored i (zeroIgnored i) := by
  cases i <;> simp [zeroIgnored, SameButIgnored]

theorem canonical_zeroIgnored (i : Instr) : (zeroIgnored i).canonical = true := by
  cases i <;> simp [zeroIgnored, Instr.canonical]

/-- A disassembled request assembles to its word with the ignored fields zero: every printed operand fits its field. -/
theorem assemble_disassemble_ok {w : ReqWord} {i : Instr} (h : decode w = .ok i) :
    assemble (disassemble w) = some [encode (zeroIgnored i)] := by
  cases i with
  | init r b | clear r b => simp [disassemble, h, assemble, AsmLine.wellFormed, zeroIgnored]
  | cmd r b | data r b => simp [disassemble, h, assemble, AsmLine.wellFormed, zeroIgnored, b.isLt]
  | setcur r c => simp [disassemble, h, assemble, AsmLine.wellFormed, zeroIgnored, r.isLt, c.isLt]

/-- A disassembled reserved word assembles to itself. -/
theorem assemble_disassemble_error {w : ReqWord} {e : DecodeError} (h : decode w = .error e) :
    assemble (disassemble w) = some [w] := by
  simp [disassemble, h, assemble, AsmLine.wellFormed, w.isLt]

/-- Settles O6: a reserved word comes back itself, another as its request with the ignored fields zero. -/
theorem disassemblyAssembles : Obligations.DisassemblyAssembles := by
  intro w
  cases h : decode w with
  | error e => exact ⟨w, assemble_disassemble_error h, fun _ _ => rfl, nofun⟩
  | ok i =>
    refine ⟨encode (zeroIgnored i), assemble_disassemble_ok h, nofun, fun i' hi' => ?_⟩
    cases hi'
    exact ⟨zeroIgnored i, decode_encode _, sameButIgnored_zeroIgnored i, canonical_zeroIgnored i⟩

/-- Settles O7: the bytes before the first zero byte are all of the text. -/
theorem printsStopsAtFirstZero : Obligations.PrintsStopsAtFirstZero := by
  intro text rest h
  have nonzero : ∀ b ∈ text, (b != 0x00#8) = true := fun b hb => bne_iff_ne.2 (h b hb)
  refine ⟨?_, ?_, rfl⟩
  · rw [printsRequests, List.takeWhile_eq_self_iff.2 nonzero]
  · rw [printsRequests, List.takeWhile_append_of_pos nonzero, List.takeWhile_cons_of_neg (by simp), List.append_nil]

/-! ### Ignored fields (R83) -/

theorem SameButIgnored.zeroIgnored_eq {i i' : Instr} (h : SameButIgnored i i') : zeroIgnored i' = zeroIgnored i := by
  unfold SameButIgnored at h
  split at h
  · rfl
  · subst h; rfl
  · subst h; rfl
  · obtain ⟨rfl, rfl⟩ := h; rfl
  · rfl
  · exact h.elim

/-- A request's OP, its program and what the monitor makes of it do not depend on its ignored fields. -/
theorem zeroIgnored_request (cfg : Config) (m : Monitor) (i : Instr) :
    (zeroIgnored i).op = i.op ∧ requestProgram cfg (zeroIgnored i) = requestProgram cfg i ∧
    monAfterAccept cfg m (zeroIgnored i) = monAfterAccept cfg m i := by
  cases i <;> exact ⟨rfl, rfl, rfl⟩

/-- So requests that differ in ignored fields only have them in common. -/
theorem SameButIgnored.same_request {i i' : Instr} (h : SameButIgnored i i') (cfg : Config) (m : Monitor) :
    i'.op = i.op ∧ requestProgram cfg i' = requestProgram cfg i ∧ monAfterAccept cfg m i' = monAfterAccept cfg m i := by
  obtain ⟨hop, hprog, hmon⟩ := zeroIgnored_request cfg m i
  obtain ⟨hop', hprog', hmon'⟩ := zeroIgnored_request cfg m i'
  rw [h.zeroIgnored_eq] at hop' hprog' hmon'
  exact ⟨hop'.symm.trans hop, hprog'.symm.trans hprog, hmon'.symm.trans hmon⟩

/-- The acceptances of two such requests differ in the latched fields only. -/
theorem SameButIgnored.exec_overlay {i i' : Instr} (h : SameButIgnored i i') {s t : State} (hx : exec i s = .next t) :
    exec i' s = .next (t.overlay i'.row i'.arg t.host) := by
  obtain ⟨hop, hprog, hmon⟩ := h.same_request s.cfg s.mon
  obtain ⟨a, P, hp, rfl⟩ := exec_enters hx
  rw [exec_eq_accept, hop, hprog, hmon, hp, accept_cons, enter_host, ← enter_overlay]
  rfl

/-- After an acceptance the registers name the request's program (R124, R126); parameters and host are as before. -/
theorem exec_program {i : Instr} {s t : State} (hx : exec i s = .next t) :
    t.program = some (requestProgram s.cfg i) ∧ t.cfg = s.cfg ∧ t.host = s.host := by
  obtain ⟨a, P, -, rfl⟩ := exec_enters hx
  simp

/-- While the block runs, ROW and ARG values that name the same program leave the run the same but for themselves. -/
theorem run_overlay {P : Program} {row : Nibble} {arg : Byte} : ∀ {j : Nat} {s : State}, s.cfg.elaborates = true →
    s.program = some P → (s.overlay row arg s.host).program = some P → quietFor j s.host = true →
    (∀ k < j, ∃ u, run k s = .next u ∧ u.fsm = .run) →
    ∃ u, run j s = .next u ∧ run j (s.overlay row arg s.host) = .next (u.overlay row arg u.host) := by
  intro j
  induction j with
  | zero => intro s _ _ _ _ _; exact ⟨s, rfl, rfl⟩
  | succ j ih =>
    intro s hc hP hP' hq hrun
    have hf : s.fsm = .run := by
      obtain ⟨u, hu, hf⟩ := hrun 0 j.succ_pos
      cases hu
      exact hf
    have hs := step_run hc hf hP hq
    obtain ⟨hcfg, hop, hrow, harg, -, -, -, hhost, -⟩ := runEdge_frame P (s.tick false)
    have hs' : step (s.overlay row arg s.host) =
        .next ((runEdge P (s.tick false)).overlay row arg (runEdge P (s.tick false)).host) := by
      rw [step_run (s := s.overlay row arg s.host) hc hf hP' hq, hhost, ← runEdge_overlay]
      rfl
    rw [run_succ hs, run_succ hs']
    refine ih (hcfg ▸ hc) ?_ ?_ ?_ ?_
    · rw [State.program, hcfg, hop, hrow, harg]
      exact hP
    · rw [State.program, State.overlay, hcfg, hop]
      exact hP'
    · rw [hhost]
      simp only [quietFor, Bool.and_eq_true] at hq
      exact hq.2
    · intro k hk
      rw [← run_succ hs]
      exact hrun (k + 1) (Nat.succ_lt_succ hk)

/-- Settles O4: the two acceptances differ in `row_r` and `arg_r` only, both name one program, and the run step of a
given program reads neither register. -/
theorem ignoredFieldsChangeNoTrace : Obligations.IgnoredFieldsChangeNoTrace := by
  intro i i' s t D hi hc hx hD hq
  have hx' := hi.exec_overlay hx
  refine ⟨_, hx', fun j hj => ?_⟩
  obtain ⟨-, hprog, -⟩ := hi.same_request s.cfg s.mon
  obtain ⟨hP, hcfg, hhost⟩ := exec_program hx
  obtain ⟨hP', -, -⟩ := exec_program hx'
  have running : ∀ k < j, ∃ u, run k t = .next u ∧ u.fsm = .run := by
    intro k hk
    obtain ⟨during, -⟩ := run_request hc hx (hD ▸ hhost ▸ hq)
    obtain ⟨u, hu, hf, -⟩ := during k (by omega)
    exact ⟨u, hu, hf⟩
  exact run_overlay (hcfg ▸ hc) hP (hprog ▸ hP') (quietFor_le hj hq) running

end Sys2Proof.Machine
end

section
/-! SUPPORT. Proofs of the statements of spec/40_pin_interface.md: whole requests from acceptance to completion, then
single edges: what each run step writes, and that RS and DB hold around the pulse. -/

namespace Sys2Proof.Machine

/-! ### Whole requests (R112 to R118, R125, R127, R128) -/

/-- An acceptance latches its request and moves the monitor (R123, R183). -/
theorem exec_latched {i : Instr} {s t : State} (hx : exec i s = .next t) :
    Latched i.op i.row i.arg s t ∧ t.mon = monAfterAccept s.cfg s.mon i := by
  obtain ⟨a, P, -, rfl⟩ := exec_enters hx
  simp [Latched]

/-- A running block is busy (R21). -/
theorem busy_of_run {s : State} (hf : s.fsm = .run) : s.busy = true := by
  simp [State.busy, State.reqReady, hf]

/-- In an elaboration every request takes at least one cycle (R127). -/
theorem requestDur_pos {cfg : Config} (hc : cfg.elaborates = true) (i : Instr) :
    1 ≤ programDur cfg (requestProgram cfg i) := by
  obtain ⟨a, P, hp⟩ := program_cons cfg i
  have ha : 1 ≤ actionDur cfg a := actionDur_pos hc (i := i) (by simp [hp])
  rw [hp, programDur]
  omega

/-- Every program has a DRIVE_LOW or a NIBBLE, after which E is low whatever it was before (R112, R115). -/
theorem linesAfterRequest_e (cfg : Config) (was : Lines) (i : Instr) :
    (linesAfterProgram was (requestProgram cfg i)).e = false := by
  cases i <;> rfl

/-- The samples of a program record no violation (R183). -/
theorem monProgram_viol (op : Nibble) (P : Program) : ∀ (k : Nat) (m : Monitor), (monProgram op k P m).viol = m.viol := by
  induction P with
  | nil => intro k m; rfl
  | cons a P ih =>
    intro k m
    rw [monProgram, ih]
    cases a with
    | driveLow => rfl
    | wait n => rfl
    | nibble v l => exact Monitor.sample_viol op _ m

/-- From its acceptance to its completion a request keeps its frame. -/
theorem RequestDone.frame {i : Instr} {s t u : State} (hx : exec i s = .next t) (done : RequestDone i s u) :
    RequestFrame t u := by
  obtain ⟨⟨-, hop, hrow, harg, -, hcfg, -, -, href, hfree, -⟩, hmon⟩ := exec_latched hx
  have hE : u.eR = false := (congrArg Lines.e done.lines).trans (linesAfterRequest_e _ _ i)
  have hviol : u.mon.viol = t.mon.viol := by rw [done.mon, monProgram_viol, hmon]
  exact ⟨done.fsm, hE, done.cfg.trans hcfg.symm, done.opR.trans hop.symm, done.rowR.trans hrow.symm,
    done.argR.trans harg.symm, done.refused.trans href.symm, done.freeCtr.trans hfree.symm, hviol⟩

/-- Settles O40: the request's run takes its program's duration. -/
theorem requestCompletesOnTime : Obligations.RequestCompletesOnTime := by
  rintro i s t _ hc hx rfl hq
  obtain ⟨⟨-, -, -, -, -, -, -, ht, -, -, hhost⟩, -⟩ := exec_latched hx
  obtain ⟨during, u, hu, done⟩ := run_request hc hx (hhost ▸ hq)
  refine ⟨requestDur_pos hc i, fun j hj => ?_, u, hu, done.frame hx, ht ▸ done.t, hhost ▸ done.host⟩
  obtain ⟨v, hv, hf, -⟩ := during j hj
  exact ⟨v, hv, hf, busy_of_run hf⟩

/-- Settles O41: an acceptance makes no sample, and the run from it those of the program. -/
theorem requestMakesItsSamples : Obligations.RequestMakesItsSamples := by
  rintro i s t _ hc hx rfl hq
  obtain ⟨⟨-, -, -, -, -, -, hS, ht, -, -, hhost⟩, -⟩ := exec_latched hx
  obtain ⟨-, u, hu, done⟩ := run_request hc hx (hhost ▸ hq)
  exact ⟨u, hu, hS ▸ ht ▸ done.samples⟩

/-- Settles O42: the lines follow the program in every cycle of the run, and at its end carry the levels it leaves. -/
theorem requestLinesFollowProgram : Obligations.RequestLinesFollowProgram := by
  rintro i s t _ hc hx rfl hq j hj
  obtain ⟨-, -, hhost⟩ := exec_program hx
  obtain ⟨during, u, hu, done⟩ := run_request hc hx (hhost ▸ hq)
  rcases hj.lt_or_eq with hj | rfl
  · obtain ⟨v, hv, -, hl⟩ := during j hj
    exact ⟨v, hv, hl⟩
  · exact ⟨u, hu, done.lines.trans (programLines_end _ _ _).symm⟩

/-! ### Single edges (R113, R124) -/

/-- An edge of a running block is the run step of its program. -/
theorem step_runEdge {s : State} {P : Program} (hs : s.EdgeWith false .run) (hP : s.program = some P) :
    step s = .next (runEdge P (s.tick false)) := by
  obtain ⟨hc, he, hr, hf⟩ := hs
  rw [step_of_legal hc, stepOnce_edge he, edge_run hr hf hP]

/-- At the end of an action the run step is that action's end. -/
theorem step_endAction {s : State} {P : Program} (hs : s.EdgeWith false .run) (hP : s.program = some P)
    (h1 : s.cnt ≤ 1) (hp : s.ph = .tail ∨ s.ph = .wait) : step s = .next (endAction P (s.tick false)) := by
  rw [step_runEdge hs hP, runEdge_end (s := s.tick false) h1]
  rcases hp with hp | hp
  · rw [endPhase_tail (s := s.tick false) hp]
  · rw [endPhase_wait (s := s.tick false) hp]

/-- `monitor_sample` with the four actions of INIT written out (R183). -/
theorem Monitor.sample_eq (op : Nibble) (ap : BitVec 5) (m : Monitor) :
    m.sample op ap = ⟨if op = 0x1#4 ∧ m.mphase ≠ .unknown then
        (if ap = 6#5 then .pending4 else if ap = 11#5 then .configuredOff
         else if ap = 14#5 then .ready else if ap = 17#5 then .readyEntry else m.mphase)
       else m.mphase, m.viol⟩ := by
  obtain ⟨h6, h11, h14, h17⟩ := ap_toNat_eq ap
  by_cases h : op = 0x1#4 ∧ m.mphase ≠ .unknown
  · simp only [Monitor.sample, opInit, if_pos h, initPhaseAt, h6, h11, h14, h17]
  · simp only [Monitor.sample, opInit, h, if_false]

/-- Settles O19: the run step at the end of HIGH is `fallE`, and its sample moves the monitor. -/
theorem runStepDropsEAndSamples : Obligations.RunStepDropsEAndSamples := by
  rintro s P hs hP h1 hp _ rfl
  rw [step_runEdge hs hP, runEdge_end (s := s.tick false) h1, endPhase_high (s := s.tick false) hp, ← Monitor.sample_eq]
  rfl

/-- DRIVE_LOW is action 0 of INIT and no other action (R112). -/
theorem driveLow_only_first (cfg : Config) (i : Instr) : Action.driveLow ∉ (requestProgram cfg i).tail := by
  cases i <;> simp [requestProgram, progInit, progCmd, progData, progSetcur, progClear, byteProgram]

/-- Settles O20: the end of the action enters the next one, which is not the program's first. -/
theorem runStepEntersNextAction : Obligations.RunStepEntersNextAction := by
  intro s P a hs hP h1 hp ha
  have hstep : step s = .next (enter a (s.tick false).advance) := by
    rw [step_endAction hs hP h1 hp, endAction_next (s := s.tick false) ha]
  refine ⟨?_, ap_succ hP ha, ?_, ?_⟩
  · rintro rfl
    obtain ⟨i, -, rfl⟩ := expand_eq_some hP
    rw [← List.getElem?_tail] at ha
    exact driveLow_only_first _ i (List.mem_of_getElem? ha)
  · rintro n rfl
    exact hstep
  · rintro v m rfl
    exact hstep

/-- Entering an action leaves a low E low. -/
theorem enter_eR_low {a : Action} {s : State} (hE : s.eR = false) : (enter a s).eR = false := by
  cases a with
  | driveLow => rfl
  | wait n => exact hE
  | nibble v m => rfl

/-- The run step moves RS or DB only where it enters an action, with E low before and after (R117). -/
theorem runEdge_stable (P : Program) {s : State} (h : s.Coherent) (hf : s.fsm = .run) :
    ((runEdge P s).dbR = s.dbR ∧ (runEdge P s).rsR = s.rsR) ∨ (s.eR = false ∧ (runEdge P s).eR = false) := by
  rcases runEdge_cases P s with ⟨-, e⟩ | ⟨-, -, e⟩ | ⟨-, -, e⟩ | ⟨-, hp, a, -, e⟩ | ⟨-, -, -, e⟩ <;> rw [e]
  case inr.inr.inr.inl =>
    have hE := coherent_action_end h hf hp
    exact .inr ⟨hE, enter_eR_low (s := s.advance) hE⟩
  all_goals exact .inl ⟨rfl, rfl⟩

/-- Settles O37: without a reset, RS and DB move only at the entry of an action, and E is low on both sides of it. -/
theorem linesStableAroundPulse : Obligations.LinesStableAroundPulse := by
  intro s u hs hr h hE
  obtain ⟨-, ⟨r, -, rfl⟩ | ⟨r, -, rfl⟩ | ⟨-, hr', -⟩ | ⟨P, -, -, hf, -, rfl⟩ | ⟨i, -, -, hf, -, -, hx⟩ |
    ⟨_, -, -, -, -, -, rfl⟩ | ⟨-, -, -, -, rfl⟩⟩ := step_cases h
  · exact ⟨rfl, rfl⟩
  · exact ⟨rfl, rfl⟩
  · simp [hr] at hr'
  · rcases runEdge_stable P (s := s.tick false) hs hf with hl | ⟨h0, h1⟩
    · exact hl
    · exact absurd hE (by simp [show s.eR = false from h0, h1])
  · have h0 : s.eR = false := (coherent_idle hf).1 hs
    obtain ⟨a, P, -, rfl⟩ := exec_enters hx
    exact absurd hE (by simp [h0, enter_eR_low])
  · exact ⟨rfl, rfl⟩
  · exact ⟨rfl, rfl⟩

/-- Settles O16: the edge of an idle block without a request only ticks. -/
theorem idleEdgeHolds : Obligations.IdleEdgeHolds := by
  rintro s ⟨hc, he, hr, hf⟩ hv
  rw [step_of_legal hc, stepOnce_edge he, edge_idle hr hf hv]
  rfl

/-- Settles O17: the run step inside a phase is `countDown`. -/
theorem runStepCountsDown : Obligations.RunStepCountsDown := by
  intro s P hs hP h1
  rw [step_runEdge hs hP, runEdge_count (s := s.tick false) h1]
  rfl

/-- Settles O18: the run step at the end of SETUP raises E and starts HIGH. -/
theorem runStepRaisesE : Obligations.RunStepRaisesE := by
  intro s P hs hP h1 hp
  rw [step_runEdge hs hP, runEdge_end (s := s.tick false) h1, endPhase_setup (s := s.tick false) hp]
  rfl

/-- Settles O21: where the program has no next action, the end of the action completes the request. -/
theorem runStepCompletes : Obligations.RunStepCompletes := by
  intro s P hs hP h1 hp hlast
  rw [step_endAction hs hP h1 hp, endAction_last (s := s.tick false) (List.getElem?_eq_none hlast)]
  rfl

/-- Settles O25: such a parameter is against `elaborates`, and the step refuses. -/
theorem illegalElaborationRefused : Obligations.IllegalElaborationRefused := by
  rintro s ⟨n, hn, hbad⟩
  have hc : s.cfg.elaborates = false := by
    rw [← Bool.not_eq_true, elaborates_iff]
    intro hall
    obtain ⟨hmin, hmax⟩ := hall n hn
    omega
  rw [step, stepLegal, hc]

end Sys2Proof.Machine
end

section
/-! SUPPORT. Proofs of the statements of spec/41_initialize.md: INIT's acceptance and the refusal of another sequence, the
trace of a request counted from its acceptance, then INIT's own program from acceptance to completion. -/

namespace Sys2Proof.Machine

/-! ### Single steps (R130, R143) -/

/-- Settles O8: INIT is latched, its first action DRIVE_LOW entered, and the monitor moved by `acceptInit`. -/
theorem initAccepted : Obligations.InitAccepted := by
  intro row arg s
  have hx := exec_eq_accept (.init row arg) s
  obtain ⟨hlatched, hmon⟩ := exec_latched hx
  refine ⟨_, hx, hlatched, rfl, rfl, rfl, fun hu => ?_, fun hu => ?_⟩
  · rw [hmon, monAfterAccept, Monitor.acceptInit_uninit hu]
  · rw [hmon, monAfterAccept, Monitor.acceptInit_again hu]
    exact ⟨rfl, rfl⟩

/-- Settles O24: the event is the step, and it is a refusal. -/
theorem otherInitSequenceRefused : Obligations.OtherInitSequenceRefused := by
  intro s r hc hh
  rw [step_of_legal hc, stepOnce, hh]
  rfl

/-! ### The trace of a request, counted from its acceptance (R67, R141) -/

/-- A program's levels do not depend on those before it: its first action, DRIVE_LOW or a NIBBLE, drives every line. -/
theorem programLines_request_was (cfg : Config) (i : Instr) (was was' : Lines) (j : Nat) :
    programLines cfg was (requestProgram cfg i) j = programLines cfg was' (requestProgram cfg i) j := by
  cases i <;> rfl

/-- In every cycle from its acceptance to its completion a request has the lines of its program over any levels before
it, and the block runs until the completion. -/
theorem request_trace {i : Instr} {s t : State} {D j : Nat} (was : Lines) (hc : s.cfg.elaborates = true)
    (hx : exec i s = .next t) (hD : D = programDur s.cfg (requestProgram s.cfg i)) (hq : quietFor D t.host = true)
    (hj : j ≤ D) :
    ∃ u, run j t = .next u ∧ u.lines = programLines s.cfg was (requestProgram s.cfg i) j ∧
      u.fsm = if j < D then .run else .idle := by
  obtain ⟨u, hu, hl⟩ := requestLinesFollowProgram i s t D hc hx hD hq j hj
  refine ⟨u, hu, hl.trans (programLines_request_was _ _ _ _ _), ?_⟩
  obtain ⟨-, during, v, hv, ⟨hidle, -⟩, -⟩ := requestCompletesOnTime i s t D hc hx hD hq
  rcases hj.lt_or_eq with hlt | rfl
  · obtain ⟨w, hw, hrun, -⟩ := during j hlt
    cases hu.symm.trans hw
    rw [if_pos hlt, hrun]
  · cases hu.symm.trans hv
    rw [if_neg (lt_irrefl _), hidle]

/-- A request's samples, counted from its acceptance, are those of its program started at edge 0. -/
theorem request_samples_shift {i : Instr} {s t : State} {D : Nat} (hc : s.cfg.elaborates = true)
    (hx : exec i s = .next t) (hD : D = programDur s.cfg (requestProgram s.cfg i)) (hq : quietFor D t.host = true) :
    ∃ u, run D t = .next u ∧
      u.samples = t.samples ++ (programSamples s.cfg 0 (requestProgram s.cfg i)).map (Sample.shift t.t) := by
  obtain ⟨u, hu, hS⟩ := requestMakesItsSamples i s t D hc hx hD hq
  exact ⟨u, hu, hS.trans (congrArg _ (programSamples_start s.cfg _ t.t 0))⟩

/-- Settles O43: both runs have the lines, `fsm` and samples of the one program of the request. -/
theorem traceDependsOnRequestOnly : Obligations.TraceDependsOnRequestOnly := by
  intro i s s' t t' D hc hcfg hx hx' hD hq hq'
  have hc' : s'.cfg.elaborates = true := hcfg ▸ hc
  have hD' : D = programDur s'.cfg (requestProgram s'.cfg i) := hcfg ▸ hD
  obtain ⟨u, hu, hS⟩ := request_samples_shift hc hx hD hq
  obtain ⟨u', hu', hS'⟩ := request_samples_shift hc' hx' hD' hq'
  refine ⟨fun j hj => ?_, u, u', _, hu, hu', hS, hcfg ▸ hS'⟩
  obtain ⟨v, hv, hl, hf⟩ := request_trace Lines.low hc hx hD hq hj
  obtain ⟨v', hv', hl', hf'⟩ := request_trace Lines.low hc' hx' hD' hq' hj
  rw [hcfg] at hl'
  exact ⟨v, v', hv, hv', hl.trans hl'.symm, hf.trans hf'.symm⟩

/-! ### INIT's program (R130 to R139, R183, R184) -/

/-- D_INIT is the duration of INIT's program (R139). -/
theorem programDur_init (cfg : Config) (row : Nibble) (arg : Byte) :
    programDur cfg (requestProgram cfg (.init row arg)) = initDur cfg := by
  simp only [requestProgram, progInit, byteProgram, List.cons_append, List.nil_append, programDur, actionDur, initDur]
  omega

/-- The lines are low from DRIVE_LOW through the power-on wait (R131, R132). -/
theorem programLines_progInit_powerOn (cfg : Config) (was : Lines) {j : Nat} (hj : j ≤ cfg.tPowerOn) :
    programLines cfg was (progInit cfg) j = Lines.low := by
  cases j with
  | zero => rfl
  | succ n =>
    exact (if_neg (show ¬ n + 1 < 1 by omega)).trans (if_pos (show n < cfg.tPowerOn by omega))

/-- RS is low in every cycle of INIT (R138): DRIVE_LOW brings it low, and every NIBBLE is at the COMMAND level. -/
theorem programLines_progInit_rs (cfg : Config) (j : Nat) : (programLines cfg Lines.low (progInit cfg) j).rs = false :=
  programLines_rs cfg (progInit cfg) Lines.low j rfl (by simp [progInit, byteProgram, Action.keepsRs, commandLevel])

/-- INIT leaves the low nibble of P_ENTRY on the lines (R137, R68). -/
theorem linesAfterProgram_progInit (cfg : Config) (was : Lines) :
    linesAfterProgram was (progInit cfg) = ⟨cfg.entry.extractLsb' 0 4, false, false⟩ := by
  rw [← lowNibble_eq]
  rfl

/-- Over INIT's samples a controller at UNINIT goes through its phases to READY_ENTRY (R183). -/
theorem monProgram_progInit_uninit (cfg : Config) {m : Monitor} (hu : m.mphase = .uninit) :
    monProgram opInit 0 (progInit cfg) m = ⟨.readyEntry, m.viol⟩ := by
  simp [progInit, byteProgram, monProgram, monAction, Monitor.sample, initPhaseAt, hu]

/-- Samples do not take a controller out of the unknown phase (R184). -/
theorem monProgram_unknown (op : Nibble) (P : Program) {m : Monitor} (hm : m.mphase = .unknown) :
    ∀ k, monProgram op k P m = m := by
  induction P with
  | nil => intro k; rfl
  | cons a P ih =>
    intro k
    have ha : monAction op (BitVec.ofNat 5 k) m a = m := by
      cases a with
      | driveLow => rfl
      | wait n => rfl
      | nibble v l => exact Monitor.sample_unknown op _ hm
    rw [monProgram, ha, ih]

/-- Settles O45: the lines, the samples, the duration and the monitor of INIT are those of its program. -/
theorem initRunsToReady : Obligations.InitRunsToReady := by
  rintro row arg s t _ _ D _ rfl hc hx rfl rfl hsum hq
  have hlong : s.cfg.tPowerOn < D := by omega
  have hD : D = programDur s.cfg (requestProgram s.cfg (.init row arg)) := hsum.trans (programDur_init _ _ _).symm
  obtain ⟨⟨-, -, -, -, -, -, hS, ht, -, -, hhost⟩, -⟩ := exec_latched hx
  obtain ⟨-, u, hu, done⟩ := run_request hc hx (hhost ▸ hD ▸ hq)
  refine ⟨fun j hj => ?_, fun j hj => ?_, u, hD ▸ hu, done.frame hx, hD ▸ ht ▸ done.t,
    done.lines.trans (linesAfterProgram_progInit _ _), ?_, fun hm => ?_, fun hm => ?_⟩
  · have hlt : j < D := hj.trans_lt hlong
    obtain ⟨v, hv, hl, hf⟩ := request_trace Lines.low hc hx hD hq hlt.le
    exact ⟨v, hv, hf.trans (if_pos hlt), hl.trans (programLines_progInit_powerOn _ _ hj)⟩
  · obtain ⟨v, hv, hl, -⟩ := request_trace Lines.low hc hx hD hq hj
    exact ⟨v, hv, (congrArg Lines.rs hl).trans (programLines_progInit_rs _ _)⟩
  · rw [done.samples, hS, ht]
    simp only [requestProgram, progInit, byteProgram, List.cons_append, List.nil_append, programSamples, actionSamples,
      actionDur, nibbleCycles, highNibble_eq, lowNibble_eq, commandLevel]
    simp only [List.append_cancel_left_eq, List.cons.injEq, Sample.mk.injEq, and_true, true_and]
    and_intros <;> omega
  · rw [done.mon, monAfterAccept, Monitor.acceptInit_uninit hm]
    exact monProgram_progInit_uninit _ hm
  · have hunk : (monAfterAccept s.cfg s.mon (.init row arg)).mphase = .unknown := by
      rw [monAfterAccept, Monitor.acceptInit_again hm]
    rw [done.mon, monProgram_unknown _ _ hunk, hunk]

end Sys2Proof.Machine
end

section
/-! SUPPORT. Proofs of the statements of spec/42_display_ops.md: the set-cursor byte and the acceptances of CMD, DATA,
SETCUR and CLEAR, then their programs from acceptance to completion. -/

namespace Sys2Proof.Machine

/-! ### Acceptance (R123, R150 to R155) -/

/-- Settles O5, by the two cases of the row base; bit 7 is the one of 0x80. -/
theorem setcurByteTwoBases : Obligations.SetcurByteTwoBases := by
  intro row col
  refine ⟨fun hrow => ?_, fun hrow => ?_, ?_⟩
  · rw [setcurByte, rowBase, if_pos hrow, BitVec.or_zero]
  · rw [setcurByte, rowBase, if_neg hrow]
  · simp [setcurByte]

/-- The part of the monitor that the display requests share moves it as R185 says. -/
theorem beforeInitChecked_acceptDisplay (m : Monitor) : BeforeInitChecked m m.acceptDisplay := by
  refine ⟨Monitor.acceptDisplay_ready, fun hm => ?_⟩
  rw [Monitor.acceptDisplay_early hm]
  exact ⟨rfl, rfl⟩

/-- The shared part leaves the mark of a cursor out of range alone. -/
@[simp] theorem Monitor.acceptDisplay_cursorRange (m : Monitor) :
    m.acceptDisplay.viol.cursorRange = m.viol.cursorRange := by
  unfold Monitor.acceptDisplay; split <;> rfl

/-- A request whose program begins with a byte is accepted in every state, and presents the byte's high nibble (R114,
R120, R123). -/
theorem exec_presentsByte {i : Instr} {s : State} {b : Byte} {m : Level} {g : Nat} {P : Program}
    (hp : requestProgram s.cfg i = byteProgram b m g ++ P) :
    ∃ t, exec i s = .next t ∧ Latched i.op i.row i.arg s t ∧ NibbleEntered (b.extractLsb' 4 4) m t ∧
      t.mon = monAfterAccept s.cfg s.mon i := by
  have hx := exec_eq_accept i s
  obtain ⟨hlatched, hmon⟩ := exec_latched hx
  refine ⟨_, hx, hlatched, ?_, hmon⟩
  rw [hp, byteProgram, highNibble_eq, List.cons_append, accept_cons]
  exact ⟨rfl, rfl, rfl, rfl, rfl⟩

/-- Settles O9: CMD's program is its byte at the COMMAND level. -/
theorem cmdAccepted : Obligations.CmdAccepted := by
  intro row b s
  obtain ⟨t, hx, hlatched, hentered, hmon⟩ := exec_presentsByte (i := .cmd row b) (s := s) (P := []) rfl
  exact ⟨t, hx, hlatched, hentered, hmon ▸ beforeInitChecked_acceptDisplay s.mon⟩

/-- Settles O10: DATA's program is its byte at the DATA level. -/
theorem dataAccepted : Obligations.DataAccepted := by
  intro row b s
  obtain ⟨t, hx, hlatched, hentered, hmon⟩ := exec_presentsByte (i := .data row b) (s := s) (P := []) rfl
  exact ⟨t, hx, hlatched, hentered, hmon ▸ beforeInitChecked_acceptDisplay s.mon⟩

/-- Settles O11: SETCUR's program is its command byte; the monitor by whether the cursor is in range. -/
theorem setcurAccepted : Obligations.SetcurAccepted := by
  intro row col s
  obtain ⟨t, hx, hlatched, hentered, hmon⟩ := exec_presentsByte (i := .setcur row col) (s := s) (P := []) rfl
  refine ⟨t, hx, hlatched, hentered, fun hin => ?_, fun hout => ?_⟩
  · have hc : cursorOutOfRange s.cfg row col = false := by
      rw [← Bool.not_eq_true, cursorOutOfRange_iff]
      omega
    rw [hmon, monAfterAccept, Monitor.acceptSetcur_in hc]
    exact beforeInitChecked_acceptDisplay s.mon
  · rw [hmon, monAfterAccept, Monitor.acceptSetcur_out (cursorOutOfRange_iff.mpr hout)]
    refine ⟨rfl, ?_⟩
    rw [← Monitor.acceptDisplay_cursorRange]
    exact beforeInitChecked_acceptDisplay s.mon

/-- Settles O12: CLEAR's program begins with the clear-display byte, whose high nibble is 0. -/
theorem clearAccepted : Obligations.ClearAccepted := by
  intro row arg s
  obtain ⟨t, hx, hlatched, hentered, hmon⟩ := exec_presentsByte (i := .clear row arg) (s := s) rfl
  exact ⟨t, hx, hlatched, hentered, hmon ▸ beforeInitChecked_acceptDisplay s.mon⟩

/-! ### Programs of bytes (R120, R121) -/

theorem programDur_append (cfg : Config) (P Q : Program) :
    programDur cfg (P ++ Q) = programDur cfg P + programDur cfg Q := by
  induction P with
  | nil => exact (Nat.zero_add _).symm
  | cons a P ih => rw [List.cons_append, programDur, programDur, ih, Nat.add_assoc]

/-- The second of two programs is entered when the first is over (R128). -/
theorem programSamples_append (cfg : Config) (P Q : Program) (k : Nat) :
    programSamples cfg k (P ++ Q) = programSamples cfg k P ++ programSamples cfg (k + programDur cfg P) Q := by
  induction P generalizing k with
  | nil => rfl
  | cons a P ih =>
    rw [List.cons_append, programSamples, programSamples, programDur, ih, List.append_assoc, Nat.add_assoc]

theorem linesAfterProgram_append (was : Lines) (P Q : Program) :
    linesAfterProgram was (P ++ Q) = linesAfterProgram (linesAfterProgram was P) Q := by
  induction P generalizing was with
  | nil => rfl
  | cons a P ih => exact ih _

/-- A byte takes two nibbles and its wait (R121). -/
theorem programDur_byteProgram (cfg : Config) (b : Byte) (m : Level) (g : Nat) :
    programDur cfg (byteProgram b m g) = 2 * nibbleCycles cfg + g := by
  simp only [byteProgram, programDur, actionDur]
  omega

/-- A byte makes two samples, its high nibble and then its low one, 2L + H edges apart (R121, R128). -/
theorem programSamples_byteProgram (cfg : Config) (k : Nat) (b : Byte) (m : Level) (g : Nat) :
    programSamples cfg k (byteProgram b m g) =
      [⟨k + cfg.eLow + cfg.eHigh, m, b.extractLsb' 4 4⟩,
       ⟨k + cfg.eLow + cfg.eHigh + nibbleCycles cfg, m, b.extractLsb' 0 4⟩] := by
  simp only [byteProgram, programSamples, actionSamples, actionDur, highNibble_eq, lowNibble_eq, List.cons_append,
    List.nil_append, List.cons.injEq, Sample.mk.injEq, and_true, true_and]
  omega

/-- A byte leaves its low nibble on the lines (R68). -/
theorem linesAfterProgram_byteProgram (was : Lines) (b : Byte) (m : Level) (g : Nat) :
    linesAfterProgram was (byteProgram b m g) = ⟨b.extractLsb' 0 4, m, false⟩ := by
  rw [← lowNibble_eq]
  rfl

/-- Both nibbles of a byte are at its level, and the wait holds it. -/
theorem byteProgram_keepsRs (b : Byte) (m : Level) (g : Nat) : ∀ a ∈ byteProgram b m g, Action.keepsRs m a := by
  simp [byteProgram, Action.keepsRs]

/-! ### Whole display requests -/

/-- Outside INIT the samples do not move the monitor (R183). -/
theorem monProgram_display {op : Nibble} (h : op ≠ opInit) (P : Program) (m : Monitor) :
    ∀ k, monProgram op k P m = m := by
  induction P with
  | nil => intro k; rfl
  | cons a P ih =>
    intro k
    have ha : monAction op (BitVec.ofNat 5 k) m a = m := by
      cases a with
      | driveLow => rfl
      | wait n => rfl
      | nibble v l => exact Monitor.sample_display h _ m
    rw [monProgram, ha, ih]

/-- A request other than INIT whose actions are all at one RS level runs with RS at that level in every cycle, and is done
after its program's duration, with the program's samples and last levels and the monitor as its acceptance left it. -/
theorem run_display {i : Instr} {s t : State} {D : Nat} {m : Level} (hop : i.op ≠ opInit)
    (hc : s.cfg.elaborates = true) (hx : exec i s = .next t) (hrs : ∀ a ∈ requestProgram s.cfg i, Action.keepsRs m a)
    (hD : D = programDur s.cfg (requestProgram s.cfg i)) (hq : quietFor D t.host = true) :
    (∀ j ≤ D, ∃ u, run j t = .next u ∧ u.rsR = m) ∧
    ∃ u, run D t = .next u ∧ RequestFrame t u ∧ u.t = t.t + D ∧ u.mon = t.mon ∧
      u.lines = linesAfterProgram s.lines (requestProgram s.cfg i) ∧
      u.samples = t.samples ++ programSamples s.cfg t.t (requestProgram s.cfg i) := by
  obtain ⟨⟨-, -, -, -, -, -, hS, ht, -, -, hhost⟩, hmon⟩ := exec_latched hx
  obtain ⟨-, u, hu, done⟩ := run_request hc hx (hhost ▸ hD ▸ hq)
  refine ⟨fun j hj => ?_, u, hD ▸ hu, done.frame hx, hD ▸ ht ▸ done.t, ?_, done.lines, hS ▸ ht ▸ done.samples⟩
  · obtain ⟨v, hv, hl, -⟩ := request_trace ⟨0x0#4, m, false⟩ hc hx hD hq hj
    exact ⟨v, hv, (congrArg Lines.rs hl).trans (programLines_rs _ _ _ j rfl hrs)⟩
  · rw [done.mon, monProgram_display hop, hmon]

/-- A request other than INIT whose program is one byte sends that byte: high nibble, then low, at one RS level (R121). -/
theorem run_byte {i : Instr} {s t : State} {b : Byte} {m : Level} {N D : Nat} (hop : i.op ≠ opInit)
    (hc : s.cfg.elaborates = true) (hx : exec i s = .next t)
    (hp : requestProgram s.cfg i = byteProgram b m s.cfg.tByteGap) (hN : N = nibbleCycles s.cfg)
    (hD : D = 2 * N + s.cfg.tByteGap) (hq : quietFor D t.host = true) :
    (∀ j ≤ D, ∃ u, run j t = .next u ∧ u.rsR = m) ∧
    ∃ u, run D t = .next u ∧ RequestFrame t u ∧ u.t = t.t + D ∧ u.mon = t.mon ∧
      u.lines = ⟨b.extractLsb' 0 4, m, false⟩ ∧
      u.samples = t.samples ++ [⟨t.t + s.cfg.eLow + s.cfg.eHigh, m, b.extractLsb' 4 4⟩,
        ⟨t.t + s.cfg.eLow + s.cfg.eHigh + N, m, b.extractLsb' 0 4⟩] := by
  have hdur : D = programDur s.cfg (requestProgram s.cfg i) := by rw [hD, hN, hp, programDur_byteProgram]
  have h := run_display hop hc hx (hp ▸ byteProgram_keepsRs b m _) hdur hq
  rwa [hp, linesAfterProgram_byteProgram, programSamples_byteProgram, ← hN] at h

/-- Settles O46: CMD's program is its byte at the COMMAND level. -/
theorem cmdSendsItsByte : Obligations.CmdSendsItsByte := by
  rintro row b s t _ N D rfl hc hx hN hD hq
  exact run_byte (by simp [opInit]) hc hx rfl hN hD hq

/-- Settles O47: DATA's program is its byte at the DATA level. -/
theorem dataSendsItsByte : Obligations.DataSendsItsByte := by
  rintro row b s t _ N D rfl hc hx hN hD hq
  exact run_byte (by simp [opInit]) hc hx rfl hN hD hq

/-- Settles O48: SETCUR's program is its command byte at the COMMAND level; the range check is the monitor's alone. -/
theorem setcurSendsItsByte : Obligations.SetcurSendsItsByte := by
  rintro row col _ s t _ N D rfl hc hx rfl hN hD hq
  exact run_byte (by simp [opInit]) hc hx rfl hN hD hq

/-- The nibbles of CLEAR's two bytes (R89). -/
theorem clearBytes_nibbles :
    clearDisplayByte.extractLsb' 4 4 = 0x0#4 ∧ clearDisplayByte.extractLsb' 0 4 = 0x1#4 ∧
    returnHomeByte.extractLsb' 4 4 = 0x0#4 ∧ returnHomeByte.extractLsb' 0 4 = 0x2#4 := by decide

/-- Settles O49: CLEAR's program is two bytes at the COMMAND level, the second entered when the first is over. -/
theorem clearSendsClearThenHome : Obligations.ClearSendsClearThenHome := by
  rintro row arg s t _ N D _ rfl hc hx hN hD rfl hq
  have hp : requestProgram s.cfg (.clear row arg) =
      byteProgram clearDisplayByte commandLevel s.cfg.tByteGap ++
        byteProgram returnHomeByte commandLevel s.cfg.tByteGap := rfl
  have hrs : ∀ a ∈ requestProgram s.cfg (.clear row arg), Action.keepsRs commandLevel a := by
    rw [hp, List.forall_mem_append]
    exact ⟨byteProgram_keepsRs _ _ _, byteProgram_keepsRs _ _ _⟩
  have hdur : D = programDur s.cfg (requestProgram s.cfg (.clear row arg)) := by
    rw [hp, programDur_append, programDur_byteProgram, programDur_byteProgram, nibbleCycles]
    omega
  obtain ⟨hlow, u, hu, hframe, ht, hmon, hlines, hS⟩ := run_display (by simp [opInit]) hc hx hrs hdur hq
  refine ⟨hlow, u, hu, hframe, ht, hmon, ?_, ?_⟩
  · rw [hlines, hp, linesAfterProgram_append, linesAfterProgram_byteProgram]
    rfl
  · rw [hS, hp, programSamples_append, programSamples_byteProgram, programSamples_byteProgram, programDur_byteProgram]
    simp only [nibbleCycles, clearBytes_nibbles, commandLevel, List.append_cancel_left_eq, List.cons_append,
      List.nil_append, List.cons.injEq, Sample.mk.injEq, and_true, true_and]
    and_intros <;> omega

end Sys2Proof.Machine
end

section
/-! SUPPORT. Proofs of the statements of spec/60_exceptions.md: first what a step does to `V`, to the refusal mark and
to the phase of the contract monitor, then stops, single steps and display requests, and at last that a safe run ends
in a known phase. -/

namespace Sys2Proof.Machine

/-! ### The violation set (R188) -/

/-- `V` is empty when nothing is in it. -/
theorem Violations.eq_none_iff {V : Violations} : V = Violations.none ↔ ∀ v, V.has v = false := by
  constructor
  · rintro rfl v
    cases v <;> rfl
  · intro h
    obtain ⟨a, b, c, d⟩ := V
    obtain rfl : a = false := h .doubleInit
    obtain rfl : b = false := h .beforeInit
    obtain rfl : c = false := h .cursorRange
    obtain rfl : d = false := h .aborted
    rfl

@[simp] theorem Violations.add_has_self (V : Violations) (v : Violation) : (V.add v).has v = true := by
  cases v <;> rfl

/-- A recorded violation leaves `V` not empty. -/
@[simp] theorem Violations.add_ne_none (V : Violations) (v : Violation) : V.add v ≠ Violations.none := by
  intro h
  have hv := Violations.eq_none_iff.1 h v
  simp at hv

/-- A reset takes nothing out of `V` (R187, R188). -/
theorem Monitor.reset_has {f : Fsm} {m : Monitor} {v : Violation} (h : m.viol.has v = true) :
    (m.reset f).viol.has v = true := by
  cases f with
  | idle => exact h
  | run => exact Violations.has_add _ h

/-- A reset that leaves `V` empty finds the block idle (R187). -/
theorem Monitor.reset_viol_none {f : Fsm} {m : Monitor} (h : (m.reset f).viol = Violations.none) : f = .idle := by
  cases f with
  | idle => rfl
  | run => exact absurd h (Violations.add_ne_none m.viol .aborted)

/-- A power cycle records what a reset records (R187, R189). -/
theorem Monitor.powerCycle_viol (f : Fsm) (m : Monitor) : (m.powerCycle f).viol = (m.reset f).viol := by
  cases f <;> rfl

/-- What a run step does to the monitor: nothing, or at the end of HIGH the sample of its action (R183). -/
theorem runEdge_mon (P : Program) (s : State) :
    (s.ph = .high ∧ (runEdge P s).mon = s.mon.sample s.opR s.ap) ∨ (runEdge P s).mon = s.mon := by
  rcases runEdge_cases P s with ⟨-, e⟩ | ⟨-, -, e⟩ | ⟨-, hp, e⟩ | ⟨-, -, a, -, e⟩ | ⟨-, -, -, e⟩ <;> rw [e]
  case inr.inr.inl => exact .inl ⟨hp, rfl⟩
  all_goals exact .inr (by simp)

/-- All that a step can do to the monitor (R183 to R189). -/
theorem step_mon {s u : State} (h : step s = .next u) :
    (∃ r, s.host = .powerCycle :: r ∧ u.mon = s.mon.powerCycle s.fsm) ∨
    (s.port.rst = true ∧ u.mon = s.mon.reset s.fsm) ∨
    (s.fsm = .run ∧ s.ph = .high ∧ u.mon = s.mon.sample s.opR s.ap) ∨
    (∃ i, s.fsm = .idle ∧ s.port.reqValid = true ∧ decode s.port.reqWord = .ok i ∧
      u.mon = monAfterAccept s.cfg s.mon i) ∨
    u.mon = s.mon := by
  obtain ⟨-, ⟨r, hh, rfl⟩ | ⟨r, -, rfl⟩ | ⟨-, hr, rfl⟩ | ⟨P, -, -, hf, -, rfl⟩ | ⟨i, -, -, hf, hv, hd, hx⟩ |
    ⟨_, -, -, -, -, -, rfl⟩ | ⟨-, -, -, -, rfl⟩⟩ := step_cases h
  · exact .inl ⟨r, hh, rfl⟩
  · exact .inr (.inr (.inr (.inr rfl)))
  · exact .inr (.inl ⟨hr, rfl⟩)
  · rcases runEdge_mon P (s.tick false) with ⟨hp, hm⟩ | hm
    · exact .inr (.inr (.inl ⟨hf, hp, hm⟩))
    · exact .inr (.inr (.inr (.inr hm)))
  · obtain ⟨-, hm⟩ := exec_latched hx
    exact .inr (.inr (.inr (.inl ⟨i, hf, hv, hd, hm⟩)))
  · exact .inr (.inr (.inr (.inr rfl)))
  · exact .inr (.inr (.inr (.inr rfl)))

/-- No step takes a violation away (R188). -/
theorem step_viol_has {s u : State} (h : step s = .next u) {v : Violation} (hv : s.mon.viol.has v = true) :
    u.mon.viol.has v = true := by
  rcases step_mon h with ⟨r, -, e⟩ | ⟨-, e⟩ | ⟨-, -, e⟩ | ⟨i, -, -, -, e⟩ | e <;> rw [e]
  · rw [Monitor.powerCycle_viol]
    exact Monitor.reset_has hv
  · exact Monitor.reset_has hv
  · rwa [Monitor.sample_viol]
  · exact monAfterAccept_has s.cfg i hv
  · exact hv

/-- No step clears the refusal mark (R34). -/
theorem step_refused {s u : State} (h : step s = .next u) (hs : s.refused = true) : u.refused = true := by
  obtain ⟨-, ⟨r, -, rfl⟩ | ⟨r, -, rfl⟩ | ⟨-, -, rfl⟩ | ⟨P, -, -, -, -, rfl⟩ | ⟨i, -, -, -, -, -, hx⟩ |
    ⟨_, -, -, -, -, -, rfl⟩ | ⟨-, -, -, -, rfl⟩⟩ := step_cases h
  · exact hs
  · rfl
  · obtain ⟨-, -, -, -, -, -, href, -⟩ := resetEdge_spec (s.tick false)
    exact href.trans hs
  · obtain ⟨-, -, -, -, -, href, -⟩ := runEdge_frame P (s.tick false)
    exact href.trans hs
  · obtain ⟨⟨-, -, -, -, -, -, -, -, href, -⟩, -⟩ := exec_latched hx
    exact href.trans hs
  · rfl
  · exact hs

/-- Settles O35: the monitor, the mark, the log and the parameters, one lemma of the step for each. -/
theorem marksNeverCleared : Obligations.MarksNeverCleared := by
  intro s u h
  refine ⟨fun v => step_viol_has h, step_refused h, ?_, step_cfg h⟩
  rcases step_log h with ⟨⟨x, hS, -⟩, -⟩ | ⟨hS, -⟩
  · exact ⟨[x], hS⟩
  · exact ⟨[], by rw [hS, List.append_nil]⟩

/-! ### The phase of the monitor (R183 to R189) -/

/-- The acceptance of a request other than INIT keeps the phase (R185). -/
theorem monAfterAccept_mphase {cfg : Config} {m : Monitor} {i : Instr} (hop : i.op ≠ 0x1#4) :
    (monAfterAccept cfg m i).mphase = m.mphase := by
  cases i with
  | init r b => exact absurd rfl hop
  | cmd r b | data r b | clear r b => exact Monitor.acceptDisplay_mphase m
  | setcur r c => exact Monitor.acceptSetcur_mphase cfg r c m

/-- An acceptance moves the phase only as a second INIT (R184). -/
theorem monAfterAccept_moves {cfg : Config} {m : Monitor} {i : Instr}
    (hne : (monAfterAccept cfg m i).mphase ≠ m.mphase) :
    i.op = 0x1#4 ∧ m.mphase ≠ .uninit ∧ monAfterAccept cfg m i = ⟨.unknown, m.viol.add .doubleInit⟩ := by
  have hop : i.op = 0x1#4 := by
    by_contra hop
    exact hne (monAfterAccept_mphase hop)
  cases i with
  | init r b =>
    have hu : m.mphase ≠ .uninit := fun hu => hne (congrArg Monitor.mphase (Monitor.acceptInit_uninit hu))
    exact ⟨rfl, hu, Monitor.acceptInit_again hu⟩
  | cmd r b | data r b | setcur r b | clear r b => simp at hop

/-- Settles O38: the step's four ways to move the monitor, each with what it does to the phase. -/
theorem phaseMovesOnlyByItsRules : Obligations.PhaseMovesOnlyByItsRules := by
  intro s u h hne
  rcases step_mon h with ⟨r, hh, e⟩ | ⟨hr, e⟩ | ⟨hf, hp, e⟩ | ⟨i, hf, hv, hd, e⟩ | e <;> rw [e] at hne ⊢
  · refine .inr (.inr (.inr ⟨r, hh, ?_⟩))
    cases s.fsm with
    | idle => exact .inl ⟨rfl, rfl⟩
    | run => exact .inr ⟨rfl, rfl, rfl⟩
  · cases hf : s.fsm with
    | idle => simp [hf] at hne
    | run => exact .inr (.inr (.inl ⟨rfl, hr, rfl, rfl⟩))
  · rcases Monitor.sample_cases s.opR s.ap s.mon with ⟨⟨hop, hk⟩, hap⟩ | hm
    · refine .inl ⟨hf, hop, hp, hk, ?_⟩
      rcases hap with ⟨ha, hm⟩ | ⟨ha, hm⟩ | ⟨ha, hm⟩ | ⟨ha, hm⟩ <;> rw [hm]
      · exact .inl ⟨ha, rfl⟩
      · exact .inr (.inl ⟨ha, rfl⟩)
      · exact .inr (.inr (.inl ⟨ha, rfl⟩))
      · exact .inr (.inr (.inr ⟨ha, rfl⟩))
    · exact absurd (congrArg Monitor.mphase hm) hne
  · obtain ⟨hop, hu, hm⟩ := monAfterAccept_moves hne
    have hw : opField s.port.reqWord = 0x1#4 := by
      rw [← decode_eq_ok_iff.1 hd, encode_eq, opField_packWord, hop]
    rw [hm]
    exact .inr (.inl ⟨hf, hv, hw, hu, rfl, rfl⟩)
  · exact absurd rfl hne

/-- Settles O39: of the steps that move the phase only the power cycle of an idle block does not begin in another phase
or end in the unknown one. -/
theorem unknownUntilPowerCycle : Obligations.UnknownUntilPowerCycle := by
  intro s u h hs hu
  rcases phaseMovesOnlyByItsRules s u h (hs ▸ hu) with ⟨-, -, -, hk, -⟩ | ⟨-, -, -, -, hu', -⟩ | ⟨-, -, hu', -⟩ |
    ⟨r, hh, ⟨hf, hu'⟩ | ⟨-, hu', -⟩⟩
  · exact absurd hs hk
  · exact absurd hu' hu
  · exact absurd hu' hu
  · exact ⟨⟨r, hh⟩, hf, hu'⟩
  · exact absurd hu' hu

/-! ### Stops and single steps (R66, R180, R182, R189) -/

/-- Settles O33: every way of the step answers a next state; a coherent running block has its program. -/
theorem neverStops : Obligations.NeverStops := by
  intro s hc hs
  rw [step_of_legal hc]
  cases he : eventNext s.host with
  | true =>
    unfold eventNext at he
    split at he
    · next r hh => exact ⟨_, by rw [stepOnce, hh]⟩
    · next r hh => exact ⟨_, by rw [stepOnce, hh]⟩
    · cases he
  | false =>
    rw [stepOnce_edge he]
    cases hr : s.port.rst with
    | true => exact ⟨_, edge_reset hr⟩
    | false =>
      cases hf : s.fsm with
      | run =>
        obtain ⟨P, -, hP, -⟩ := (coherent_run hf).1 hs
        exact ⟨_, edge_run hr hf hP⟩
      | idle =>
        cases hv : s.port.reqValid with
        | false => exact ⟨_, edge_idle hr hf hv⟩
        | true =>
          rw [edge_accept hr hf hv, acceptWord]
          cases decode s.port.reqWord with
          | ok i => exact ⟨_, exec_eq_accept i _⟩
          | error e => exact ⟨_, rfl⟩

/-- Settles O15: the decoder answers an error for the word, so its acceptance is the drop. -/
theorem reservedRequestDropped : Obligations.ReservedRequestDropped := by
  rintro s _ ⟨hc, he, hr, hf⟩ hv hop rfl
  have hd := decode_reserved_iff.2 hop
  constructor
  · rw [step_of_legal hc, stepOnce_edge he, edge_accept hr hf hv, acceptWord, hd]
    rfl
  · exact fun hr' => (reqReady_iff _).2 ⟨hf, hr'⟩

/-- Settles O23: the event is the step, and it is the monitor's power cycle. -/
theorem powerCycleMovesMonitorOnly : Obligations.PowerCycleMovesMonitorOnly := by
  intro s r hc hh
  have hstep : step s = .next (powerCycle { s with host := r }) := by
    rw [step_of_legal hc, stepOnce, hh]
  constructor
  · intro hf
    rw [hstep, powerCycle, hf]
    rfl
  · intro hf
    rw [hstep, powerCycle, hf]
    rfl

/-! ### Display requests of a ready controller (R185, R186) -/

/-- A display request with its cursor in range leaves the monitor of a ready controller as it is. -/
theorem monAfterAccept_ready {cfg : Config} {m : Monitor} {i : Instr} (hm : m.mphase = .readyEntry)
    (hop : i.op ≠ 0x1#4) (hin : i.op = 0x4#4 → i.row.toNat < cfg.rows ∧ i.arg.toNat < cfg.cols) :
    monAfterAccept cfg m i = m := by
  cases i with
  | init r b => exact absurd rfl hop
  | cmd r b | data r b | clear r b => exact Monitor.acceptDisplay_ready hm
  | setcur r c =>
    obtain ⟨hrow, hcol⟩ := hin rfl
    have hc : cursorOutOfRange cfg r c = false := by
      rw [← Bool.not_eq_true, cursorOutOfRange_iff]
      exact not_or.2 ⟨Nat.not_le.2 hrow, Nat.not_le.2 hcol⟩
    exact (Monitor.acceptSetcur_in hc).trans (Monitor.acceptDisplay_ready hm)

/-- Settles O51: neither the acceptance nor the samples of the request move the monitor. -/
theorem displayRequestsKeepContract : Obligations.DisplayRequestsKeepContract := by
  rintro i s t _ hc hm ⟨hviol, href⟩ hop hin hx rfl hq
  obtain ⟨-, -, hhost⟩ := exec_program hx
  obtain ⟨-, u, hu, done⟩ := run_request hc hx (hhost ▸ hq)
  have hmon : u.mon = s.mon := by
    rw [done.mon, monProgram_display hop, monAfterAccept_ready hm hop hin]
  exact ⟨u, hu, ⟨hmon ▸ hviol, done.refused.trans href⟩, hmon ▸ hm⟩

/-! ### Safe runs (R188, R213) -/

/-- The phase in which the acceptance of a request with this OP keeps the contract (R184, R185). -/
def contractPhase (op : Nibble) : MPhase := if op = opInit then .uninit else .readyEntry

/-- An acceptance that leaves `V` empty found, and left, the controller in the phase of its request. -/
theorem monAfterAccept_contract {cfg : Config} {m : Monitor} {i : Instr}
    (hV : (monAfterAccept cfg m i).viol = Violations.none) :
    (monAfterAccept cfg m i).mphase = contractPhase i.op := by
  have display : m.acceptDisplay.viol = Violations.none → m.acceptDisplay.mphase = .readyEntry := by
    intro hV
    by_contra hm
    rw [Monitor.acceptDisplay_mphase] at hm
    rw [Monitor.acceptDisplay_early hm] at hV
    exact Violations.add_ne_none m.viol .beforeInit hV
  cases i with
  | init r b =>
    have hm : m.mphase = .uninit := by
      by_contra hm
      rw [monAfterAccept, Monitor.acceptInit_again hm] at hV
      exact Violations.add_ne_none m.viol .doubleInit hV
    rw [monAfterAccept, Monitor.acceptInit_uninit hm]
    exact hm
  | cmd r b | data r b | clear r b => exact display hV
  | setcur r c =>
    cases hc : cursorOutOfRange cfg r c with
    | false =>
      rw [monAfterAccept, Monitor.acceptSetcur_in hc] at hV ⊢
      exact display hV
    | true =>
      rw [monAfterAccept, Monitor.acceptSetcur_out hc] at hV
      exact absurd hV (Violations.add_ne_none m.acceptDisplay.viol .cursorRange)

/-- How many actions of its program a running block has behind it as far as samples go: a NIBBLE's sample is made when
its TAIL begins (R115, R116). -/
def State.actionsSampled (s : State) : Nat := if s.ph = .tail then s.ap.toNat + 1 else s.ap.toNat

theorem actionsSampled_tail {s : State} (hp : s.ph = .tail) : s.actionsSampled = s.ap.toNat + 1 := if_pos hp

theorem actionsSampled_not_tail {s : State} (hp : s.ph ≠ .tail) : s.actionsSampled = s.ap.toNat := if_neg hp

/-- Entering an action begins no TAIL. -/
theorem enter_actionsSampled (a : Action) (s : State) : (enter a s).actionsSampled = s.ap.toNat := by
  cases a <;> rfl

/-- The monitor over one action more. -/
theorem monProgram_take_succ {op : Nibble} {a : Action} : ∀ {P : Program} {n k : Nat} {m : Monitor}, P[n]? = some a →
    monProgram op k (P.take (n + 1)) m = monAction op (BitVec.ofNat 5 (k + n)) (monProgram op k (P.take n) m) a := by
  intro P
  induction P with
  | nil => intro n k m h; cases h
  | cons b P ih =>
    intro n k m h
    cases n with
    | zero =>
      obtain rfl : b = a := by simpa using h
      rfl
    | succ n =>
      rw [List.take_succ_cons, List.take_succ_cons, monProgram, monProgram, ih h, Nat.succ_add_eq_add_succ]

/-- The monitor of a running block with program `P` is that of an acceptance which kept the contract, moved by the
samples so far. -/
def State.MonitorFollows (s : State) (P : Program) : Prop :=
  ∃ m, m.mphase = contractPhase s.opR ∧ s.mon = monProgram s.opR 0 (P.take s.actionsSampled) m

/-- The monitor's phase is known: UNINIT or READY_ENTRY while the block is idle, and while a request runs the one that
its samples so far give. -/
def State.PhaseKnown (s : State) : Prop :=
  match s.fsm with
  | .idle => s.mon.mphase = .uninit ∨ s.mon.mphase = .readyEntry
  | .run  => ∃ P, s.program = some P ∧ s.MonitorFollows P

theorem phaseKnown_idle {s : State} (hf : s.fsm = .idle) :
    s.PhaseKnown ↔ s.mon.mphase = .uninit ∨ s.mon.mphase = .readyEntry := by
  simp [State.PhaseKnown, hf]

theorem phaseKnown_run {s : State} (hf : s.fsm = .run) :
    s.PhaseKnown ↔ ∃ P, s.program = some P ∧ s.MonitorFollows P := by
  simp [State.PhaseKnown, hf]

/-- Over all of its samples a request that kept the contract brings the controller to READY_ENTRY, or leaves it
there. -/
theorem monProgram_contract {cfg : Config} {op row : Nibble} {arg : Byte} {P : Program} {m : Monitor}
    (hP : expand cfg op row arg = some P) (hm : m.mphase = contractPhase op) :
    (monProgram op 0 P m).mphase = .readyEntry := by
  by_cases hop : op = opInit
  · subst hop
    obtain rfl : progInit cfg = P := by simpa [expand] using hP
    rw [monProgram_progInit_uninit cfg hm]
  · rw [monProgram_display hop, hm, contractPhase, if_neg hop]

/-- Where an action ends, the monitor has followed the samples of that action too: a NIBBLE's is made, and the others
make none. -/
theorem State.MonitorFollows.action_end {s : State} {P : Program} (hs : s.Coherent) (hf : s.fsm = .run)
    (hP : s.program = some P) (hp : s.ph = .tail ∨ s.ph = .wait) (h : s.MonitorFollows P) :
    ∃ m, m.mphase = contractPhase s.opR ∧ s.mon = monProgram s.opR 0 (P.take (s.ap.toNat + 1)) m := by
  obtain ⟨m, hm, hmon⟩ := h
  refine ⟨m, hm, hmon.trans ?_⟩
  rcases hp with hp | hp
  · rw [actionsSampled_tail hp]
  · obtain ⟨P', a, hP', ha, hd⟩ := (coherent_run hf).1 hs
    obtain rfl : P' = P := by simpa [hP] using hP'.symm
    rw [actionsSampled_not_tail (by simp [hp]), monProgram_take_succ ha]
    rw [hp] at hd
    cases a with
    | driveLow => rfl
    | wait n => rfl
    | nibble v l => exact hd.elim

/-- The run step keeps the phase known: its sample is the one that comes next, and after the last the request is
complete. -/
theorem runEdge_phaseKnown {s : State} {P : Program} (hs : s.Coherent) (hf : s.fsm = .run) (hP : s.program = some P)
    (h : s.MonitorFollows P) : (runEdge P s).PhaseKnown := by
  rcases runEdge_cases P s with ⟨-, e⟩ | ⟨-, hp, e⟩ | ⟨-, hp, e⟩ | ⟨-, hp, a, ha, e⟩ | ⟨-, hp, hlast, e⟩ <;> rw [e]
  · exact (phaseKnown_run (s := s.countDown) hf).2 ⟨P, hP, h⟩
  · obtain ⟨m, hm, hmon⟩ := h
    rw [actionsSampled_not_tail (by simp [hp])] at hmon
    exact (phaseKnown_run (s := (s.setE true).startPhase .high s.cfg.eHigh) hf).2 ⟨P, hP, m, hm, hmon⟩
  · obtain ⟨m, hm, hmon⟩ := h
    obtain ⟨P', a, hP', ha, hd⟩ := (coherent_run hf).1 hs
    obtain rfl : P' = P := by simpa [hP] using hP'.symm
    refine (phaseKnown_run (s := fallE s) hf).2 ⟨P', hP, m, hm, ?_⟩
    rw [hp] at hd
    rw [actionsSampled_not_tail (by simp [hp])] at hmon
    rw [actionsSampled_tail (fallE_ph s), fallE_ap, fallE_opR, fallE_mon, monProgram_take_succ ha, ← hmon,
      Nat.zero_add, BitVec.ofNat_toNat, BitVec.setWidth_eq]
    cases a with
    | driveLow => exact hd.elim
    | wait n => exact hd.elim
    | nibble v l => rfl
  · obtain ⟨m, hm, hmon⟩ := h.action_end hs hf hP hp
    refine (phaseKnown_run (by simpa using hf)).2 ⟨P, by simpa using hP, m, by simpa using hm, ?_⟩
    rw [enter_actionsSampled, State.advance_ap, ap_succ hP ha, enter_mon, enter_opR]
    exact hmon
  · obtain ⟨m, hm, hmon⟩ := h.action_end hs hf hP hp
    rw [List.take_of_length_le (List.getElem?_eq_none_iff.1 hlast)] at hmon
    refine (phaseKnown_idle rfl).2 (.inr ?_)
    rw [State.complete_mon, hmon]
    exact monProgram_contract hP hm

/-- An acceptance that leaves `V` empty keeps the phase known: no sample is made yet. -/
theorem exec_phaseKnown {i : Instr} {s u : State} (hx : exec i s = .next u) (hV : u.mon.viol = Violations.none) :
    u.PhaseKnown := by
  obtain ⟨a, P, hp, rfl⟩ := exec_enters hx
  rw [enter_mon] at hV
  refine (phaseKnown_run (by simp)).2 ⟨a :: P, by simp [hp], monAfterAccept s.cfg s.mon i, ?_, ?_⟩
  · rw [enter_opR]
    exact monAfterAccept_contract hV
  · rw [enter_actionsSampled, enter_mon]
    rfl

/-- A step that leaves `V` empty keeps the phase known. -/
theorem step_phaseKnown {s u : State} (hs : s.Coherent) (hk : s.PhaseKnown) (h : step s = .next u)
    (hV : u.mon.viol = Violations.none) : u.PhaseKnown := by
  obtain ⟨-, ⟨r, -, rfl⟩ | ⟨r, -, rfl⟩ | ⟨-, -, rfl⟩ | ⟨P, -, -, hf, hP, rfl⟩ | ⟨i, -, -, -, -, -, hx⟩ |
    ⟨_, -, -, -, -, -, rfl⟩ | ⟨-, -, -, -, rfl⟩⟩ := step_cases h
  · have hf : s.fsm = .idle := Monitor.reset_viol_none ((Monitor.powerCycle_viol s.fsm s.mon).symm.trans hV)
    refine (phaseKnown_idle (s := powerCycle { s with host := r }) hf).2 (.inl ?_)
    simp [powerCycle, hf]
  · exact hk
  · obtain ⟨-, hidle, -, hmon, -⟩ := resetEdge_spec (s.tick false)
    have hf : s.fsm = .idle := Monitor.reset_viol_none (hmon ▸ hV)
    rw [phaseKnown_idle hidle, hmon, State.tick_fsm, State.tick_mon, hf]
    exact (phaseKnown_idle hf).1 hk
  · obtain ⟨P', hP', hm⟩ := (phaseKnown_run hf).1 hk
    obtain rfl : P' = P := by simpa [hP] using hP'.symm
    exact runEdge_phaseKnown (s := s.tick false) hs hf hP hm
  · exact exec_phaseKnown hx hV
  · exact hk
  · exact hk

/-- The registers agree with one another, and as long as `V` is empty the monitor's phase is known. -/
def State.SafePhaseKnown (s : State) : Prop := s.Coherent ∧ (s.mon.viol = Violations.none → s.PhaseKnown)

/-- After the first reset the controller is at UNINIT (R33, R36). -/
theorem first_safePhaseKnown (cfg : Config) (h : List HostAct) : (State.first cfg h).SafePhaseKnown :=
  ⟨(coherent_idle rfl).2 rfl, fun _ => (phaseKnown_idle rfl).2 (.inl rfl)⟩

/-- Every step keeps that: where `V` is empty after it, it was empty before. -/
theorem step_safePhaseKnown {s u : State} (hs : s.SafePhaseKnown) (h : step s = .next u) : u.SafePhaseKnown := by
  obtain ⟨hc, hk⟩ := hs
  refine ⟨coherentKept s u hc h, fun hV => step_phaseKnown hc (hk ?_) h hV⟩
  rw [Violations.eq_none_iff] at hV ⊢
  intro v
  by_contra hv
  rw [Bool.not_eq_false] at hv
  exact absurd (step_viol_has h hv) (by simp [hV v])

/-- What holds of the first state of a run and is kept by every step holds of its last, which is an end (R213). -/
theorem statesToEnd_invariant {I : State → Prop} (keep : ∀ {s u : State}, I s → step s = .next u → I u) :
    ∀ {k : Nat} {s : State} {ss : List State}, statesToEnd k s = some ss → I s →
      ∃ u, ss.getLast? = some u ∧ u.EndOfRun ∧ I u := by
  intro k
  induction k with
  | zero =>
    intro s ss h hs
    rcases statesToEnd_cases h with ⟨hend, rfl⟩ | ⟨-, j, -, -, hj, -⟩
    · exact ⟨s, rfl, hend, hs⟩
    · cases hj
  | succ k ih =>
    intro s ss h hs
    rcases statesToEnd_cases h with ⟨hend, rfl⟩ | ⟨-, j, v, us, hj, hv, hus, rfl⟩
    · exact ⟨s, rfl, hend, hs⟩
    · cases hj
      obtain ⟨u, hu, hend, hI⟩ := ih hus (keep hs hv)
      exact ⟨u, by rw [List.getLast?_cons, hu]; rfl, hend, hI⟩

/-- Settles O55: the phase of a safe run is known in its last state, and the block is idle there. -/
theorem safeRunEndsInKnownPhase : Obligations.SafeRunEndsInKnownPhase := by
  rintro cfg h ss o ⟨k, hss⟩ ho ⟨hV, -⟩
  obtain ⟨u, hu, ⟨hf, -⟩, -, hk⟩ := statesToEnd_invariant step_safePhaseKnown hss (first_safePhaseKnown cfg h)
  obtain rfl : u.observe (cycleLevels ss) = o := by simpa [observeRun, hu] using ho
  exact (phaseKnown_idle hf).1 (hk hV)

end Sys2Proof.Machine
end

section
/-! SUPPORT. Proofs of the statements of spec/70_reset_and_hazards.md: the reset edge and the durations, then runs to
their first end, what is observed of any run, and what is observed of a list of requests. -/

namespace Sys2Proof.Machine

/-! ### The reset edge (R200, R201, R187) -/

/-- An edge with `rst = 1` is the reset edge, whatever `fsm` is (R190). -/
theorem step_resetEdge {s : State} {f : Fsm} (hs : s.EdgeWith true f) : step s = .next (resetEdge (s.tick false)) := by
  obtain ⟨hc, he, hr, -⟩ := hs
  rw [step_of_legal hc, stepOnce_edge he, edge_reset hr]

/-- A reset edge draws a pair of free values for its sample if E was high (R201). -/
theorem resetEdge_freeCtr (s : State) : (resetEdge s).freeCtr = if s.eR then s.freeCtr + 1 else s.freeCtr := by
  cases h : s.eR <;> simp [resetEdge, h]

/-- Settles O22: the step is the reset edge; the monitor by what `fsm` was, the log by what E was. -/
theorem resetEdgeResets : Obligations.ResetEdgeResets := by
  intro s f hs
  have hstep := step_resetEdge hs
  obtain ⟨-, -, -, hf⟩ := hs
  obtain ⟨hcfg, -, -, hmon, ht, hhost, href, hS⟩ := resetEdge_spec (s.tick false)
  have hfree := resetEdge_freeCtr (s.tick false)
  rw [State.tick_fsm, State.tick_mon, hf] at hmon
  refine ⟨_, hstep, rfl, rfl, rfl, rfl, rfl, rfl, rfl, rfl, rfl, rfl, hcfg, ht, href, hhost, ?_, ?_,
    fun hE => ⟨by simpa [hE] using hS, by simpa [hE] using hfree⟩,
    fun hE => ⟨by simpa [hE] using hS, by simpa [hE] using hfree⟩⟩
  · rintro rfl
    exact hmon
  · rintro rfl
    rw [hmon]
    exact ⟨rfl, rfl⟩

/-! ### Durations (R139, R210) -/

/-- CLEAR sends two bytes (R155). -/
theorem programDur_clear (cfg : Config) (row : Nibble) (arg : Byte) :
    programDur cfg (requestProgram cfg (.clear row arg)) = 2 * (2 * nibbleCycles cfg + cfg.tByteGap) := by
  rw [requestProgram, progClear, programDur_append, programDur_byteProgram, programDur_byteProgram, ← two_mul]

/-- Settles O44: INIT's program lasts D_INIT, the others one byte or two. -/
theorem requestDurations : Obligations.RequestDurations := by
  intro cfg row arg
  exact ⟨programDur_init cfg row arg, programDur_byteProgram cfg _ _ _, programDur_byteProgram cfg _ _ _,
    programDur_byteProgram cfg _ _ _, programDur_clear cfg row arg,
    (programDur_init Config.reference row arg).trans rfl, (programDur_byteProgram Config.reference _ _ _).trans rfl,
    (programDur_clear Config.reference row arg).trans rfl⟩

/-! ### Runs to their first end (R213) -/

/-- What holds of an end alone, and of a state and the run from its step, holds of every run. -/
theorem statesToEnd_induction {motive : State → List State → Prop} (last : ∀ {s}, s.EndOfRun → motive s [s])
    (cons : ∀ {s u us j}, ¬ s.EndOfRun → step s = .next u → statesToEnd j u = some us → motive u us →
      motive s (s :: us)) :
    ∀ {k s ss}, statesToEnd k s = some ss → motive s ss := by
  intro k
  induction k with
  | zero =>
    intro s ss h
    obtain ⟨he, rfl⟩ | ⟨-, j, -, -, hk, -⟩ := statesToEnd_cases h
    · exact last he
    · cases hk
  | succ k ih =>
    intro s ss h
    obtain ⟨he, rfl⟩ | ⟨he, j, u, us, hk, hs, hu, rfl⟩ := statesToEnd_cases h
    · exact last he
    · obtain rfl : k = j := Nat.succ.inj hk
      exact cons he hs hu (ih hu)

/-- The states `ss` are the steps from `s`, and exactly the last is an end. -/
def StepsToFirstEnd (s : State) (ss : List State) : Prop :=
  ∃ n, ss.length = n + 1 ∧ ∀ j ≤ n, ∃ v, ss[j]? = some v ∧ run j s = .next v ∧ (v.EndOfRun ↔ j = n)

/-- Every run is the steps from its first state to the first end. -/
theorem statesToEnd_stepsToFirstEnd {k : Nat} {s : State} {ss : List State} (h : statesToEnd k s = some ss) :
    StepsToFirstEnd s ss := by
  refine statesToEnd_induction (motive := StepsToFirstEnd) ?_ ?_ h
  · intro s he
    refine ⟨0, rfl, fun j hj => ?_⟩
    obtain rfl : j = 0 := Nat.le_zero.1 hj
    exact ⟨s, rfl, rfl, iff_of_true he rfl⟩
  · rintro s u us - he hs - ⟨n, hlen, hstates⟩
    refine ⟨n + 1, by simp [hlen], fun j hj => ?_⟩
    cases j with
    | zero => exact ⟨s, rfl, rfl, iff_of_false he (Nat.succ_ne_zero n).symm⟩
    | succ j =>
      obtain ⟨v, hv, hrun, hend⟩ := hstates j (Nat.le_of_succ_le_succ hj)
      exact ⟨v, hv, (run_succ hs).trans hrun, by rw [hend, Nat.succ_inj]⟩

/-- Steps that reach an end pass a first one. -/
theorem statesToEnd_of_run {n : Nat} : ∀ {s u : State}, run n s = .next u → u.EndOfRun →
    ∃ ss, statesToEnd n s = some ss ∧ ss.length ≤ n + 1 := by
  induction n with
  | zero =>
    intro s u h he
    obtain rfl : s = u := by simpa using h
    exact ⟨[s], statesToEnd_end he 0, le_rfl⟩
  | succ n ih =>
    intro s u h he
    by_cases hs : s.EndOfRun
    · exact ⟨[s], statesToEnd_end hs _, by simp⟩
    · cases hstep : step s with
      | fault r => simp [run, hstep] at h
      | refused r => simp [run, hstep] at h
      | next v =>
        rw [run_succ hstep] at h
        obtain ⟨ss, hss, hlen⟩ := ih h he
        exact ⟨s :: ss, by rw [statesToEnd_step hs hstep, hss]; rfl, Nat.succ_le_succ hlen⟩

/-- However many steps are allowed, the run from a state is the same. -/
theorem statesToEnd_unique {j k : Nat} {s : State} {ss us : List State} (h : statesToEnd k s = some ss)
    (h' : statesToEnd j s = some us) : ss = us := by
  refine statesToEnd_induction (motive := fun s ss => ∀ {j us}, statesToEnd j s = some us → ss = us) ?_ ?_ h h'
  · intro s he j us h'
    simpa [statesToEnd_end he] using h'
  · intro s u ss _ he hs _ ih j us h'
    obtain ⟨he', -⟩ | ⟨-, i, u', us', -, hs', hu', rfl⟩ := statesToEnd_cases h'
    · exact absurd he' he
    · obtain rfl : u = u' := by simpa [hs] using hs'
      rw [ih hu']

/-- Settles O52: by the states of a run, its existence and its uniqueness from any state. -/
theorem runStopsAtItsFirstEnd : Obligations.RunStopsAtItsFirstEnd := by
  intro cfg h
  refine ⟨?_, ?_, ?_⟩
  · rintro ss ⟨k, hk⟩
    exact statesToEnd_stepsToFirstEnd hk
  · intro n u hu he
    obtain ⟨ss, hss, hlen⟩ := statesToEnd_of_run hu he
    exact ⟨ss, ⟨n, hss⟩, hlen⟩
  · rintro ss us ⟨k, hk⟩ ⟨j, hj⟩
    exact statesToEnd_unique hk hj

/-! ### The observation of a run (R213, R32) -/

/-- A run begins with the state it is taken from. -/
theorem mem_of_statesToEnd {k : Nat} {s : State} {ss : List State} (h : statesToEnd k s = some ss) : s ∈ ss := by
  obtain ⟨-, rfl⟩ | ⟨-, -, -, us, -, -, -, rfl⟩ := statesToEnd_cases h <;> exact List.mem_cons_self

/-- The states `ss` have one entry of levels for each cycle from that of `s` to that of the last, and each has the entry
of its own cycle. -/
def CyclesObserved (s : State) (ss : List State) : Prop :=
  (∃ u, ss.getLast? = some u ∧ s.t + (cycleLevels ss).length = u.t + 1) ∧
  ∀ v ∈ ss, ∃ j, v.t = s.t + j ∧ (cycleLevels ss)[j]? = some v.lines

/-- An end is one cycle. -/
theorem CyclesObserved.last {s : State} (he : s.EndOfRun) : CyclesObserved s [s] := by
  obtain ⟨-, hev, -, -⟩ := he
  have hlevels : cycleLevels [s] = [s.lines] := cycleLevels_edge hev []
  rw [CyclesObserved, hlevels]
  refine ⟨⟨s, rfl, rfl⟩, fun v hv => ⟨0, ?_⟩⟩
  obtain rfl : v = s := List.mem_singleton.1 hv
  exact ⟨rfl, rfl⟩

/-- A state before an edge is a cycle of its own before those of the run from the edge on. -/
theorem CyclesObserved.edge {s u : State} {us : List State} (he : eventNext s.host = false) (ht : u.t = s.t + 1)
    (h : CyclesObserved u us) : CyclesObserved s (s :: us) := by
  obtain ⟨⟨w, hw, hlen⟩, hall⟩ := h
  rw [CyclesObserved, cycleLevels_edge he]
  refine ⟨⟨w, by rw [List.getLast?_cons, hw]; rfl, by rw [List.length_cons]; omega⟩, fun v hv => ?_⟩
  rcases List.mem_cons.1 hv with rfl | hv
  · exact ⟨0, rfl, rfl⟩
  · obtain ⟨j, hj, hl⟩ := hall v hv
    exact ⟨j + 1, by omega, hl⟩

/-- A state before an event is in the cycle in which the run goes on, with the same levels. -/
theorem CyclesObserved.event {s u : State} {us : List State} (he : eventNext s.host = true) (ht : u.t = s.t)
    (hl : u.lines = s.lines) (hu : u ∈ us) (h : CyclesObserved u us) : CyclesObserved s (s :: us) := by
  obtain ⟨⟨w, hw, hlen⟩, hall⟩ := h
  rw [CyclesObserved, cycleLevels_event he, ← ht]
  refine ⟨⟨w, by rw [List.getLast?_cons, hw]; rfl, hlen⟩, fun v hv => ?_⟩
  rcases List.mem_cons.1 hv with rfl | hv
  · rw [← ht, ← hl]
    exact hall u hu
  · exact hall v hv

/-- Every run observes every cycle once: an edge begins the next cycle, an event stays in its own. -/
theorem statesToEnd_cyclesObserved {k : Nat} {s : State} {ss : List State} (h : statesToEnd k s = some ss) :
    CyclesObserved s ss := by
  refine statesToEnd_induction (motive := CyclesObserved) CyclesObserved.last ?_ h
  intro s u us j _ hs hu ih
  obtain ⟨event, edge⟩ := step_edge_number hs
  cases he : eventNext s.host with
  | false => exact ih.edge he (edge he)
  | true =>
    obtain ⟨ht, hl⟩ := event he
    exact ih.event he ht hl (mem_of_statesToEnd hu)

/-- Settles O53: the run starts in cycle 0, and observes every cycle from there on. -/
theorem runObservesEveryCycle : Obligations.RunObservesEveryCycle := by
  rintro cfg h ss ⟨k, hk⟩
  obtain ⟨⟨u, hu, hlen⟩, hall⟩ := statesToEnd_cyclesObserved hk
  have ht : (State.first cfg h).t = 0 := rfl
  simp only [ht, Nat.zero_add] at hlen hall
  refine ⟨u.observe (cycleLevels ss), u, by rw [observeRun, hu]; rfl, hu, hlen, fun v hv => ?_, rfl, rfl, rfl, rfl⟩
  obtain ⟨j, rfl, hl⟩ := hall v hv
  exact hl

/-! ### The run of a list of requests (R70, R127, R128, R204, R213) -/

/-- The contract monitor over a whole request: its acceptance, then its samples (R183). -/
def monAfterRequest (cfg : Config) (m : Monitor) (i : Instr) : Monitor :=
  monProgram i.op 0 (requestProgram cfg i) (monAfterAccept cfg m i)

/-- INIT brings a controller at UNINIT to READY_ENTRY and records nothing (R183, R184). -/
theorem monAfterRequest_init {cfg : Config} {m : Monitor} (row : Nibble) (arg : Byte) (hm : m.mphase = .uninit) :
    monAfterRequest cfg m (.init row arg) = ⟨.readyEntry, m.viol⟩ := by
  rw [monAfterRequest, monAfterAccept, Monitor.acceptInit_uninit hm]
  exact monProgram_progInit_uninit cfg hm

/-- A request other than INIT, and not a SETCUR out of range: one that a ready controller takes without a violation
(R184, R186). -/
def DisplayInRange (cfg : Config) (i : Instr) : Prop :=
  i.op ≠ 0x1#4 ∧ (i.op = 0x4#4 → i.row.toNat < cfg.rows ∧ i.arg.toNat < cfg.cols)

/-- Display requests with their cursors in range leave the monitor of a ready controller as it is (R185, R186). -/
theorem foldl_monAfterRequest_ready {cfg : Config} {m : Monitor} {js : List Instr} (hm : m.mphase = .readyEntry)
    (hjs : ∀ j ∈ js, DisplayInRange cfg j) :
    js.foldl (monAfterRequest cfg) m = m := by
  induction js with
  | nil => rfl
  | cons j js ih =>
    obtain ⟨⟨hop, hin⟩, hjs⟩ := List.forall_mem_cons.1 hjs
    rw [List.foldl_cons, monAfterRequest, monProgram_display hop, monAfterAccept_ready hm hop hin, ih hjs]

/-- INIT first and then such requests: the controller ends ready, and nothing is recorded. -/
theorem foldl_monAfterRequest_init {cfg : Config} {m : Monitor} {js : List Instr} (row : Nibble) (arg : Byte)
    (hm : m.mphase = .uninit) (hjs : ∀ j ∈ js, DisplayInRange cfg j) :
    (Instr.init row arg :: js).foldl (monAfterRequest cfg) m = ⟨.readyEntry, m.viol⟩ := by
  rw [List.foldl_cons, monAfterRequest_init row arg hm, foldl_monAfterRequest_ready rfl hjs]

/-- `ss` is the run of an idle block in `s` to whose port the requests `is` come one after another, and `u` its end:
every cycle's levels, the samples and the monitor are those of the requests in order. -/
structure RequestsObserved (is : List Instr) (s : State) (ss : List State) (u : State) : Prop where
  isRun   : ∃ k, statesToEnd k s = some ss
  last    : ss.getLast? = some u
  levels  : cycleLevels ss = sequenceLevels s.cfg s.lines is
  samples : u.samples = s.samples ++ sequenceSamples s.cfg s.t is
  refused : u.refused = s.refused
  mon     : u.mon = is.foldl (monAfterRequest s.cfg) s.mon

/-- With nothing to present the run is its idle cycle. -/
theorem requestsObserved_nil {s : State} (hf : s.fsm = .idle) (hh : s.host = []) : RequestsObserved [] s [s] s where
  isRun   := ⟨0, statesToEnd_end (endOfRun_of_idle hf hh) 0⟩
  last    := rfl
  levels  := cycleLevels_edge (by rw [hh]; rfl) []
  samples := (List.append_nil _).symm
  refused := rfl
  mon     := rfl

/-- A run through an offered request: one idle cycle in which the lines hold, the cycles of the request's program, and
then on from its completion. -/
theorem statesToEnd_offer {i : Instr} {s : State} {ws : List ReqWord} (hc : s.cfg.elaborates = true)
    (hf : s.fsm = .idle) (hh : s.host = hostOffering (encode i :: ws)) :
    ∃ v, RequestDone i (s.tick true) v ∧ v.host = hostOffering ws ∧ ∀ {k ss}, statesToEnd k v = some ss →
      ∃ pre l, statesToEnd l s = some (pre ++ ss) ∧ cycleLevels pre = s.lines ::
        (List.range (programDur s.cfg (requestProgram s.cfg i))).map
          (programLines s.cfg s.lines (requestProgram s.cfg i)) := by
  obtain ⟨hs, hhost⟩ := step_accepts_offer hc hf hh
  obtain ⟨t, hx⟩ : ∃ t, exec i (s.tick true) = .next t := ⟨_, exec_eq_accept i _⟩
  have htn : noEvents t.host = true := by
    rw [(exec_t_host hx).2, hhost]
    exact noEvents_offering ws
  obtain ⟨during, v, hv, done⟩ := run_request (s := s.tick true) hc hx (hhost.symm ▸ quietFor_offering _ ws)
  refine ⟨v, done, ?_, fun {k ss} hk => ?_⟩
  · rw [done.host, hhost]
    exact hostAfterEdges_offering _ ws
  · have running : ∀ j < programDur s.cfg (requestProgram s.cfg i), ∃ w, run j t = .next w ∧ ¬ w.EndOfRun ∧
        eventNext w.host = false ∧ w.lines = programLines s.cfg s.lines (requestProgram s.cfg i) j := by
      intro j hj
      obtain ⟨w, hw, hfw, hl⟩ := during j hj
      exact ⟨w, hw, by rintro ⟨hi, -⟩; simp [hfw] at hi, eventNext_of_noEvents (run_noEvents htn hw), hl⟩
    obtain ⟨pre, hpre, hlev⟩ := statesToEnd_run running hv hk
    have hne : ¬ s.EndOfRun := by simp [State.EndOfRun, hh, hostOffering, noFurtherRequest]
    refine ⟨s :: pre, _, (statesToEnd_step hne (hs.trans hx) _).trans (by rw [hpre]; rfl), ?_⟩
    rw [cycleLevels_edge (by rw [hh]; rfl), hlev]

/-- The requests of an offering host, by induction on the list: the first completes with the block idle and the host
offering the others. -/
theorem requestsObserved (is : List Instr) : ∀ {s : State}, s.cfg.elaborates = true → s.fsm = .idle →
    s.host = hostOffering (is.map encode) → ∃ ss u, RequestsObserved is s ss u := by
  induction is with
  | nil => exact fun {s} _ hf hh => ⟨[s], s, requestsObserved_nil hf hh⟩
  | cons i is ih =>
    intro s hc hf hh
    obtain ⟨v, done, hhost, through⟩ := statesToEnd_offer hc hf hh
    have hcfg : v.cfg = s.cfg := done.cfg
    obtain ⟨ss, u, rest⟩ := ih (hcfg ▸ hc) done.fsm hhost
    obtain ⟨k, hk⟩ := rest.isRun
    obtain ⟨pre, l, hl, hlev⟩ := through hk
    refine ⟨pre ++ ss, u, ⟨l, hl⟩, ?_, ?_, ?_, rest.refused.trans done.refused, ?_⟩
    · rw [List.getLast?_append, rest.last]
      rfl
    · rw [cycleLevels_append, hlev, rest.levels, hcfg, done.lines]
      rfl
    · rw [rest.samples, hcfg, done.samples, done.t, List.append_assoc]
      rfl
    · rw [rest.mon, hcfg, done.mon]
      rfl

/-- Settles O54: the requests as observed from the state after the first reset edge; INIT finds the controller at
UNINIT, and the others find it ready. -/
theorem runOfRequestsObserved : Obligations.RunOfRequestsObserved := by
  intro cfg is hc
  obtain ⟨ss, u, seen⟩ := requestsObserved is (s := State.first cfg (hostOffering (is.map encode))) hc rfl rfl
  refine ⟨ss, u.observe (cycleLevels ss), seen.isRun, by rw [observeRun, seen.last]; rfl, seen.levels, seen.samples,
    seen.refused, ?_⟩
  rintro row arg js rfl hjs
  have hmon : u.mon = ⟨.readyEntry, Violations.none⟩ :=
    seen.mon.trans (foldl_monAfterRequest_init row arg rfl hjs)
  exact ⟨congrArg Monitor.viol hmon, congrArg Monitor.mphase hmon⟩

end Sys2Proof.Machine
end
